-- ==== Sys2Proof/Word.lean ====
section
/-! DEFINITION. Word.lean: the word types of A2P (00_scope.md R6, R9). -/

namespace Sys2Proof

/-- A register address or a register value of the transport, REG_AW = REG_DW = 8 (00_scope.md R6). -/
abbrev Byte := BitVec 8

/-- A 16-bit value: the angle field of a command word, OFF16 (10_state.md R25). -/
abbrev Half := BitVec 16

/-- A command or response word, CMD_W = RSP_W = 32; also the milliseconds of a delay (00_scope.md R6, R7). -/
abbrev Word := BitVec 32

end Sys2Proof
end

