-- ==== Sys2Proof/Config.lean ====
section
/-! DEFINITION. Config.lean: the configuration of A2P (00_scope.md R7, R8), fixed before reset is released and changed by no
command, and the one value the spec leaves open. -/

namespace Sys2Proof

/-- The configuration parameters `cfg` (00_scope.md R7). A state carries its configuration as plain data, so a statement about
every state is a statement about every configuration (log entry 2). -/
structure Config where
  /-- PRESCALE, written to PRE_SCALE by init step 3. -/
  prescale : Byte
  /-- SOFT_RESET_EN: init step 1 is performed. -/
  softResetEn : Bool
  /-- POST_WRITE_DELAY_EN: a delay follows the two writes of a SERVO. -/
  postWriteDelayEn : Bool
  /-- WAKE_SETTLE_EN: init step 6 ends with a delay. -/
  wakeSettleEn : Bool
  /-- DELAY_MS: the length of every delay, in milliseconds. -/
  delayMs : Word
deriving DecidableEq, Repr

/-- The PRESCALE byte of the implementation. R7 and D20 leave it OPEN and give no default, so this constant has no body: nothing
can be proved about its value. DESIGN CHOICE (log entry 1); safe. -/
opaque Config.openPrescale : Byte

/-- The default configuration for a given PRESCALE (00_scope.md R7). -/
def Config.defaults (prescale : Byte) : Config where
  prescale := prescale
  softResetEn := false
  postWriteDelayEn := true
  wakeSettleEn := false
  delayMs := 10

/-- The preset ORIGINAL of 00_scope.md R8; it ties neither PRESCALE nor WAKE_SETTLE_EN. -/
def Config.original (c : Config) : Config := { c with softResetEn := false, postWriteDelayEn := false }

/-- The preset REVISED of 00_scope.md R8; it ties neither PRESCALE nor WAKE_SETTLE_EN. -/
def Config.revised (c : Config) : Config := { c with softResetEn := true, postWriteDelayEn := true }

end Sys2Proof
end

