-- ==== Sys2Proof/Syntax.lean ====
section
/-! DEFINITION. Syntax.lean: the commands of A2P-CMD 1, one constructor per row of spec/opcode_table.json (30_encoding.md R62). -/

namespace Sys2Proof

/-- A command. Operands are the integers of 30_encoding.md R61; `Instr.wellFormed` gives their ranges. -/
inductive Instr where
  /-- `conv <angle>`: convert only (40_convert.md R90). -/
  | conv (angle : Int)
  /-- `servo <ch>, <angle>`: convert and write one channel (41_servo_write.md R106). -/
  | servo (ch : Nat) (angle : Int)
  /-- `init`: run the initialisation sequence (42_init.md R125). -/
  | init
deriving DecidableEq, Repr

end Sys2Proof
end

