-- ==== Sys2Proof/WellFormed.lean ====
section
/-! DEFINITION. WellFormed.lean: which commands a command word can carry (30_encoding.md R61, R66). -/

namespace Sys2Proof

/-- ANGLE_W = 16, signed: "an integer from -32768 to 32767" (30_encoding.md R61). -/
def angleFits (angle : Int) : Bool := decide (-32768 ≤ angle) && decide (angle ≤ 32767)

/-- CH_W = 8, unsigned: "an integer from 0 to 255" (30_encoding.md R61). Channels 16 to 255 are well formed; SERVO rejects them
when it runs (41_servo_write.md R105). -/
def channelFits (ch : Nat) : Bool := decide (ch ≤ 255)

/-- The operands fit their fields. -/
def Instr.wellFormed : Instr → Bool
  | .conv angle => angleFits angle
  | .servo ch angle => channelFits ch && angleFits angle
  | .init => true

end Sys2Proof
end

