-- ==== Sys2Proof/Decode.lean ====
section
/-! DEFINITION. Decode.lean: from a command word to a command or a named rejection, and back (30_encoding.md R60 to R66). -/

namespace Sys2Proof

/-- Why a word is no command (30_encoding.md R65). The names are the model's; all four are the one exception IllegalCommand. -/
inductive Illegal where
  /-- RSV is not 0, with any OP. -/
  | reservedNotZero
  /-- OP is 0x0 or at least 0x4. -/
  | noSuchOperation
  /-- OP is 0x1 (CONV) and CH is not 0. -/
  | convChannelNotZero
  /-- OP is 0x3 (INIT) and CH or ANGLE is not 0. -/
  | initOperandNotZero
deriving DecidableEq, Repr

/-- OP = cmd[31:28] (30_encoding.md R60). -/
def opField (cmd : Word) : BitVec 4 := cmd.extractLsb' 28 4

/-- RSV = cmd[27:24] (30_encoding.md R60). -/
def rsvField (cmd : Word) : BitVec 4 := cmd.extractLsb' 24 4

/-- CH = cmd[23:16] (30_encoding.md R60). -/
def chField (cmd : Word) : Byte := cmd.extractLsb' 16 8

/-- ANGLE = cmd[15:0] (30_encoding.md R60). -/
def angleField (cmd : Word) : Half := cmd.extractLsb' 0 16

/-- `sext_16` (00_scope.md R10): v if v < 2^15, else v - 2^16. -/
def sext16 (v : Half) : Int := if v.toNat < 2 ^ 15 then (v.toNat : Int) else (v.toNat : Int) - 2 ^ 16

/-- `zext_8` (00_scope.md R10): the field read as unsigned. -/
def zext8 (v : Byte) : Nat := v.toNat

/-- The decoder: the fields of R60, the operands of R61, and a named rejection for each kind of illegal word of R65. -/
def decode (cmd : Word) : Except Illegal Instr :=
  if rsvField cmd ≠ 0 then .error .reservedNotZero
  else if opField cmd = 1 then
    if chField cmd = 0 then .ok (.conv (sext16 (angleField cmd))) else .error .convChannelNotZero
  else if opField cmd = 2 then .ok (.servo (zext8 (chField cmd)) (sext16 (angleField cmd)))
  else if opField cmd = 3 then
    if chField cmd = 0 ∧ angleField cmd = 0 then .ok .init else .error .initOperandNotZero
  else .error .noSuchOperation

/-- The command word with the four fields of 30_encoding.md R60. -/
def commandWord (op : BitVec 4) (ch : Byte) (angle : Half) : Word := op ++ (0 : BitVec 4) ++ ch ++ angle

/-- The encoder (30_encoding.md R60, formats A, CA and N): operands are taken modulo their field, as in R66. -/
def encode : Instr → Word
  | .conv angle => commandWord 1 0 (BitVec.ofInt 16 angle)
  | .servo ch angle => commandWord 2 (BitVec.ofNat 8 ch) (BitVec.ofInt 16 angle)
  | .init => commandWord 3 0 0

/-- The word the opcode table's bit numbering gives: bit 0 is the least significant bit, bits from `nbits` up are 0. -/
def tableWord (nbits w : Nat) : Word := BitVec.ofNat 32 (w % 2 ^ nbits)

/-- The command the decoder reads from a table word; none where it refuses. A2P takes a command as one 32-bit word
(30_encoding.md R60), so no byte order comes in. -/
def decodeTableWord (nbits w : Nat) : Option Instr :=
  match decode (tableWord nbits w) with
  | .ok i => some i
  | .error _ => none

end Sys2Proof
end

