-- ==== Sys2Proof/Machine/State.lean ====
section
/-! DEFINITION. Machine/State.lean: the state of A2P and of its ports, the exceptions, and the state after reset. -/

namespace Sys2Proof.Machine

/-- The transport's answer to one register write (20_memory.md R47). -/
inductive Answer where
  | done
  | failed
deriving DecidableEq, Repr

/-- What became of an emitted register write: its answer, or that a reset ended the wait for it (70_reset_and_hazards.md R160). -/
inductive Fate where
  | answered (a : Answer)
  | abandoned
deriving DecidableEq, Repr

/-- An event on the transport port (20_memory.md R46). -/
inductive Event where
  /-- `W(reg, val)`: write the byte `val` to register `reg` of the device at DEV_ADDR. -/
  | w (reg val : Byte)
  /-- `D(ms)`: ask the host's delay primitive for a delay. -/
  | d (ms : Word)
deriving DecidableEq, Repr

/-- One step of a command's pseudocode (00_scope.md R11; 42_init.md R121 step 7). -/
inductive Op where
  /-- `MemWrite(reg, 1, val)`. -/
  | memWrite (reg val : Byte)
  /-- `Delay(ms)`. -/
  | delay (ms : Word)
  /-- `S.INIT_DONE <- 1`. -/
  | setInitDone
deriving DecidableEq, Repr

/-- What a command in progress is waiting for (10_state.md R26: "which answer it waits for"). -/
inductive Wait where
  /-- the transport's answer to `W(reg, val)`, which has been emitted -/
  | answer (reg val : Byte)
  /-- the return of the delay primitive, whose `D` has been emitted -/
  | delayReturn
deriving DecidableEq, Repr

/-- The position of A2P inside a command (10_state.md R26): what it waits for and the steps it has still to perform after that.
Every command that can wait ends with `respond(OK, 0, 0)`, so the response needs no place here. -/
structure Busy where
  wait : Wait
  rest : List Op
deriving DecidableEq, Repr

/-- The reset input in the course of one step (70_reset_and_hazards.md R160, R173). A move of A2P is the emission of an event, the
taking of an answer or of a delay's return, or the giving of a response; reset can be asserted before, between and after moves. -/
inductive ResetInput where
  /-- released throughout -/
  | released
  /-- asserted throughout -/
  | asserted
  /-- released at first, asserted after this many moves of A2P (or, when it moves less, at the end of the step) -/
  | during (moves : Nat)
deriving DecidableEq, Repr

/-- How long A2P can act in a step: to the end, or for so many moves until reset is asserted. -/
inductive Span where
  | whole
  | moves (n : Nat)
deriving DecidableEq, Repr

/-- Whether the delay primitive returns (70_reset_and_hazards.md R170, R173). -/
inductive Delays where
  /-- it returns from every delay -/
  | always
  /-- it returns from `n` more delays and then never again -/
  | only (n : Nat)
deriving DecidableEq, Repr

/-- The environment's side of the transport port, all of it an input of A2P (00_scope.md R12 `answers`, 70_reset_and_hazards.md
R173). The model's own field of State; log entry 3. -/
structure Env where
  /-- the answers to the coming writes, one consumed per write, in order -/
  answers : List Answer
  /-- what every write is answered once `answers` is used up; none: it is never answered -/
  standing : Option Answer
  /-- whether delays return -/
  delays : Delays
deriving DecidableEq, Repr

/-- A register image or any other byte memory: (address, byte) pairs. An unlisted address is unknown (20_memory.md R55). -/
abbrev Memory := List Host.Cell

/-- The state of A2P and of its ports. -/
structure State where
  /-- the configuration (00_scope.md R7); no command changes it (10_state.md R24) -/
  cfg : Config
  /-- INIT_DONE, the one bit of architectural state (10_state.md R20) -/
  initDone : Bool
  /-- the hidden position inside a command (10_state.md R26); none when A2P is idle -/
  busy : Option Busy
  /-- the command words the host has still to issue, first to last (10_state.md R22); log entry 5 -/
  commands : List Word
  /-- the reset input in the course of each of the coming steps; released once used up (R160); log entry 6 -/
  resetLine : List ResetInput
  /-- the transport's answers and the delay primitive's returns to come; log entry 3 -/
  env : Env
  /-- what the environment has in store from each of the coming steps on: at each step the next one, if any, takes the place of
  `env`, so that an answer or a return can come later; log entry 3 -/
  envLine : List Env
  /-- the events emitted so far, oldest first (00_scope.md R12) -/
  trace : List Event
  /-- what became of each W of the trace, oldest first; a write still waited for has none yet -/
  fates : List Fate
  /-- the response words given so far, oldest first (30_encoding.md R63) -/
  responses : List Word
  /-- the register image T of the trace (20_memory.md R55) -/
  image : Memory
deriving DecidableEq, Repr

/-- The status of a command (60_exceptions.md R140). -/
inductive Status where
  | ok
  | invalidChannel
  | transportError
  | illegalCommand
deriving DecidableEq, Repr

/-- The exceptions of A2P (60_exceptions.md R141 to R143). An exception is no stop of the machine: it is delivered in the response
word of the command that raised it (R144). -/
inductive Exception where
  /-- SERVO with a channel above 15 (R141) -/
  | invalidChannel (ch : Nat)
  /-- a write to this register was answered failed (R142) -/
  | transportError (reg : Byte)
  /-- the word selects no command (R143) -/
  | illegalCommand
deriving DecidableEq, Repr

/-- Reasons for the machine to stop with a fault. There is none: "A2P never stops of itself" (70_reset_and_hazards.md R172), its
exceptions end in a response word, and a wait that never ends is a state that stays as it is (log entry 4). Safe. -/
inductive Fault where
deriving DecidableEq, Repr

/-- Reasons for the model to give no meaning. -/
inductive Refusal where
  /-- Raised by an arm of exec that has no meaning yet, and by nothing else. No arm of this model raises it. Safe. -/
  | notModelled (mnemonic : String)
deriving DecidableEq, Repr

/-- An environment in which every write is answered done and every delay returns: the unqualified environment of
95_test_vectors.md ("Unless answers are listed, every transport answer is done"). DESIGN CHOICE as the environment at reset
(log entry 3); unsafe for claims about runs from reset. -/
def Env.ideal : Env where
  answers := []
  standing := some .done
  delays := .always

/-- The state right after reset with a given configuration: INIT_DONE = 0 (10_state.md R27), A2P idle (70_reset_and_hazards.md
R160), the image empty (20_memory.md R55). The host has issued nothing and nothing has been emitted. -/
def State.resetWith (cfg : Config) : State where
  cfg := cfg
  initDone := false
  busy := none
  commands := []
  resetLine := []
  env := Env.ideal
  envLine := []
  trace := []
  fates := []
  responses := []
  image := []

/-- The state right after reset in the default configuration of 00_scope.md R7 with the open PRESCALE (log entries 1 and 2). -/
def State.reset : State := State.resetWith (Config.defaults Config.openPrescale)

end Sys2Proof.Machine
end

