-- ==== Sys2Proof/Machine/Constants.lean ====
section
/-! DEFINITION. Machine/Constants.lean: the constants of 00_scope.md R5, under R5's names. -/

namespace Sys2Proof.Machine

/-- ANGLE_IN_MIN, degrees. -/
def angleInMin : Int := 0
/-- ANGLE_IN_MAX, degrees. -/
def angleInMax : Int := 180
/-- PULSE_MIN_US, microseconds. -/
def pulseMinUs : Int := 700
/-- PULSE_MAX_US, microseconds. -/
def pulseMaxUs : Int := 2300
/-- FRAME_HZ, the PWM frame frequency. -/
def frameHz : Int := 50
/-- FRAME_US, the frame period: `1_000_000 / 50` microseconds. -/
def frameUs : Int := 1000000 / frameHz
/-- FRAME_TICKS, ticks per frame. -/
def frameTicks : Int := 4096
/-- N_CHANNELS. -/
def nChannels : Nat := 16
/-- DEV_ADDR, the PWM chip's address on the transport. -/
def devAddr : Byte := 0x6A
/-- REG_MODE1. -/
def regMode1 : Byte := 0x00
/-- CH_BASE, the register address of channel 0's block. -/
def chBase : Nat := 0x08
/-- CH_STRIDE, bytes per channel block. -/
def chStride : Nat := 4
/-- ON_L_OFS. -/
def onLOfs : Nat := 0
/-- ON_H_OFS. -/
def onHOfs : Nat := 1
/-- OFF_L_OFS. -/
def offLOfs : Nat := 2
/-- OFF_H_OFS. -/
def offHOfs : Nat := 3
/-- REG_ALL_ON_L; REG_ALL_ON_H is the next register. -/
def regAllOnL : Byte := 0xFA
/-- REG_ALL_OFF_L; REG_ALL_OFF_H is the next register. -/
def regAllOffL : Byte := 0xFC
/-- REG_PRE_SCALE. -/
def regPreScale : Byte := 0xFE
/-- MODE1_RESET, "soft reset bit". -/
def mode1Reset : Byte := 0x80
/-- MODE1_SLEEP_AI, "sleep + auto-increment". -/
def mode1SleepAi : Byte := 0x11
/-- MODE1_WAKE, "clear sleep bit, restart oscillator". -/
def mode1Wake : Byte := 0x01
/-- ON_COUNT, the value of every ON pair. -/
def onCount : Half := 0
/-- CENTER_ANGLE, the angle the init sequence writes to all channels. -/
def centerAngle : Int := 90

end Sys2Proof.Machine
end

