-- ==== Sys2Proof/Machine/Flags.lean ====
section
/-! DEFINITION. Machine/Flags.lean: INIT_DONE, the only flag (10_state.md R23), and the status of a command with its response word
(30_encoding.md R63, 60_exceptions.md R140). -/

namespace Sys2Proof.Machine

/-- 42_init.md R121 step 7: `S.INIT_DONE <- 1`. -/
def State.setInitDone (s : State) : State := { s with initDone := true }

/-- The status codes of 60_exceptions.md R140. -/
def Status.code : Status → BitVec 4
  | .ok => 0
  | .invalidChannel => 1
  | .transportError => 2
  | .illegalCommand => 3

/-- The response word `{status[3:0], 0000, info[7:0], off16[15:0]}` (30_encoding.md R63). -/
def responseWord (status : Status) (info : Byte) (off16 : Half) : Word := status.code ++ (0 : BitVec 4) ++ info ++ off16

/-- The status an exception reports (60_exceptions.md R140). -/
def Exception.status : Exception → Status
  | .invalidChannel _ => .invalidChannel
  | .transportError _ => .transportError
  | .illegalCommand => .illegalCommand

/-- The INFO byte an exception reports (60_exceptions.md R140). -/
def Exception.info : Exception → Byte
  | .invalidChannel ch => BitVec.ofNat 8 ch
  | .transportError reg => reg
  | .illegalCommand => 0

end Sys2Proof.Machine
end

