-- ==== Sys2Proof/Machine/Operands.lean ====
section
/-! DEFINITION. Machine/Operands.lean: the channel operand, register addresses, byte splits and register pairs
(20_memory.md R41, R48; 41_servo_write.md R100, R101). -/

namespace Sys2Proof.Machine

/-- The channel check of 41_servo_write.md R105: channels 0 to 15 are valid. -/
def channelValid (ch : Nat) : Bool := decide (ch < nChannels)

/-- The register of channel `ch` at offset `ofs` of its block: `BASE(CH) + ofs` with `BASE(CH) = 0x08 + 4 * CH` (R100). -/
def channelReg (ch ofs : Nat) : Byte := BitVec.ofNat 8 (chBase + chStride * ch + ofs)

/-- OFF-low of channel `ch` (R100). -/
def offLowReg (ch : Nat) : Byte := channelReg ch offLOfs

/-- OFF-high of channel `ch` (R100). -/
def offHighReg (ch : Nat) : Byte := channelReg ch offHOfs

/-- `v[7:0]` (00_scope.md R9). -/
def lowByte (v : Half) : Byte := v.extractLsb' 0 8

/-- `v[15:8]` (00_scope.md R9). -/
def highByte (v : Half) : Byte := v.extractLsb' 8 8

/-- Register pair forming (41_servo_write.md R101): `v[7:0]` to the register at `a` first, then `v[15:8]` to the next. -/
def formPair (a : Byte) (v : Half) : List Op := [.memWrite a (lowByte v), .memWrite (a + 1) (highByte v)]

/-- The hold a configuration boolean asks for: one `Delay(cfg.DELAY_MS)` or nothing. -/
def holdIf (b : Bool) (c : Config) : List Op := if b then [.delay c.delayMs] else []

end Sys2Proof.Machine
end

