-- ==== Sys2Proof/Machine/Ops.lean ====
section
/-! DEFINITION. Machine/Ops.lean: the shared operations. Byte memory in canonical form; the transport port; responding and taking
an exception; performing the steps of a command; waiting, resuming and being reset. -/

namespace Sys2Proof.Machine

/-! ### Byte memory in canonical form (20_memory.md R40, R55) -/

/-- Every listed address is at least `lo` and below 0x100, and the addresses rise strictly. -/
def Memory.wfFrom : Nat → Memory → Bool
  | _, [] => true
  | lo, (a, _) :: rest => decide (lo ≤ a) && decide (a < 256) && Memory.wfFrom (a + 1) rest

/-- The canonical form: addresses are register addresses (one byte, 20_memory.md R40) and rise strictly. An unlisted address is
unknown, so no entry can equal it. -/
def Memory.wf (m : Memory) : Bool := Memory.wfFrom 0 m

/-- What the image says of an address; none where it is unknown. -/
def Memory.read : Memory → Nat → Option Byte
  | [], _ => none
  | (k, b) :: rest, a => if k = a then some b else Memory.read rest a

/-- `T[a] = v` (20_memory.md R55). -/
def Memory.write : Memory → Nat → Byte → Memory
  | [], a, v => [(a, v)]
  | (k, b) :: rest, a, v =>
    if a < k then (a, v) :: (k, b) :: rest
    else if a = k then (a, v) :: rest
    else (k, b) :: Memory.write rest a v

/-- Make `T[a]` unknown (20_memory.md R55). -/
def Memory.forget : Memory → Nat → Memory
  | [], _ => []
  | (k, b) :: rest, a => if k = a then Memory.forget rest a else (k, b) :: Memory.forget rest a

/-! ### The environment's answers (00_scope.md R12, 20_memory.md R47) -/

/-- The transport's answer to a write, and the environment after it; none if it does not come. -/
def Env.takeAnswer (e : Env) : Option (Answer × Env) :=
  match e.answers with
  | a :: rest => some (a, { e with answers := rest })
  | [] => e.standing.map fun a => (a, e)

/-- The return of the delay primitive; none if it does not come. -/
def Env.takeReturn (e : Env) : Option Env :=
  match e.delays with
  | .always => some e
  | .only 0 => none
  | .only (n + 1) => some { e with delays := .only n }

/-- The environment can end this wait. -/
def Env.serves (e : Env) : Wait → Bool
  | .answer _ _ => e.takeAnswer.isSome
  | .delayReturn => e.takeReturn.isSome

/-! ### The transport port (20_memory.md R46, R47; 30_encoding.md R64) -/

/-- The 24-bit word of the write channel, `{DEV, REG, VAL}` (30_encoding.md R64). -/
def writeChannelWord (reg val : Byte) : BitVec 24 := devAddr ++ reg ++ val

/-- What an event drives on the write channel; none for a delay (30_encoding.md R64). -/
def Event.writeChannel : Event → Option (BitVec 24)
  | .w reg val => some (writeChannelWord reg val)
  | .d _ => none

/-- What an event drives on the delay channel; none for a write (30_encoding.md R64). -/
def Event.delayChannel : Event → Option Word
  | .w _ _ => none
  | .d ms => some ms

/-- The answer bit of the write channel: 0 done, 1 failed (30_encoding.md R64). -/
def Answer.bit : Answer → BitVec 1
  | .done => 0
  | .failed => 1

/-- Emit `W(reg, val)`. The image changes only at the answer (20_memory.md R55), so that until then a register pair holds the new low
byte and the stale high byte (70_reset_and_hazards.md R164; DEDUCED, log entry 7). -/
def State.emitWrite (s : State) (reg val : Byte) : State := { s with trace := s.trace ++ [.w reg val] }

/-- Emit `D(ms)`. -/
def State.emitDelay (s : State) (ms : Word) : State := { s with trace := s.trace ++ [.d ms] }

/-- The answer *done* to `W(reg, val)`: the register holds `val` (20_memory.md R55). -/
def State.writeDone (s : State) (reg val : Byte) : State :=
  { s with fates := s.fates ++ [.answered .done], image := s.image.write reg.toNat val }

/-- The answer *failed* to `W(reg, val)`: the register is unknown (20_memory.md R55, 93_implementation_defined.md U4). -/
def State.writeFailed (s : State) (reg : Byte) : State :=
  { s with fates := s.fates ++ [.answered .failed], image := s.image.forget reg.toNat }

/-! ### The end of a command: responding and taking an exception -/

/-- `respond(status, info, off16)`: give the command's response word (30_encoding.md R63). -/
def State.respond (s : State) (status : Status) (info : Byte) (off16 : Half) : State :=
  { s with responses := s.responses ++ [responseWord status info off16] }

/-- Taking an exception (60_exceptions.md R144): it is delivered only as STATUS and INFO of the response word; nothing is saved, no
handler is entered and no other state changes. There is no return from an exception, because there is no handler to return from
(R147): A2P is idle again and accepts the next command. -/
def State.raise (s : State) (e : Exception) : State := s.respond e.status e.info 0

/-! ### Performing the steps of a command (00_scope.md R11) -/

/-- `s` with this left of the environment's inputs. -/
def State.withEnv (s : State) (e : Env) : State := { s with env := e }

/-- The command in progress waits here (10_state.md R26). -/
def State.waitAt (s : State) (b : Busy) : State := { s with busy := some b }

/-- No command is in progress. -/
def State.idle (s : State) : State := { s with busy := none }

/-- What is left of a span after one move; none if reset is asserted before it. -/
def Span.next : Span → Option Span
  | .whole => some .whole
  | .moves 0 => none
  | .moves (n + 1) => some (.moves n)

/-- Give the response, unless reset is asserted before it. -/
def respondIn (status : Status) (info : Byte) (off16 : Half) (span : Span) (s : State) : State :=
  match span.next with
  | some _ => s.respond status info off16
  | none => s

/-- Take an exception, unless reset is asserted before it. -/
def raiseIn (e : Exception) (span : Span) (s : State) : State := respondIn e.status e.info 0 span s

/-- Wait for the answer to `W(reg, val)`, which has been emitted: *done* goes on with `cont`, *failed* raises TransportError and
performs none of the remaining steps (60_exceptions.md R142); with no answer the command waits (20_memory.md R47). Cut off by reset
before the answer is taken, the command leaves it in the environment, for the next write: DESIGN CHOICE, log entry 16. -/
def awaitAnswer (reg val : Byte) (rest : List Op) (cont : Span → State → State) (span : Span) (s : State) : State :=
  match span.next with
  | some span' =>
    match s.env.takeAnswer with
    | some (.done, e) => cont span' ((s.withEnv e).writeDone reg val)
    | some (.failed, e) => raiseIn (.transportError reg) span' ((s.withEnv e).writeFailed reg)
    | none => s.waitAt ⟨.answer reg val, rest⟩
  | none => s.waitAt ⟨.answer reg val, rest⟩

/-- Wait for the delay primitive, whose `D` has been emitted: it cannot fail (60_exceptions.md R142), but it may never return
(70_reset_and_hazards.md R170). Cut off by reset before the return is taken, the command leaves it in the environment: DESIGN CHOICE,
log entry 16. -/
def awaitReturn (rest : List Op) (cont : Span → State → State) (span : Span) (s : State) : State :=
  match span.next with
  | some span' =>
    match s.env.takeReturn with
    | some e => cont span' (s.withEnv e)
    | none => s.waitAt ⟨.delayReturn, rest⟩
  | none => s.waitAt ⟨.delayReturn, rest⟩

/-- Perform the steps of a command in order, as far as the span goes, and respond OK at its end (00_scope.md R11: "a command that ends
without a raise and without an explicit respond responds respond(OK, 0, 0)"). -/
def performIn : List Op → Span → State → State
  | [], span, s => respondIn .ok 0 0 span s
  | .memWrite reg val :: rest, span, s =>
    match span.next with
    | some span' => awaitAnswer reg val rest (fun sp t => performIn rest sp t) span' (s.emitWrite reg val)
    | none => s
  | .delay ms :: rest, span, s =>
    match span.next with
    | some span' => awaitReturn rest (fun sp t => performIn rest sp t) span' (s.emitDelay ms)
    | none => s
  | .setInitDone :: rest, span, s => performIn rest span s.setInitDone

/-- Perform the steps of a command with reset released throughout. -/
def perform (ops : List Op) (s : State) : State := performIn ops .whole s

/-- What a command does: it responds at once, raises an exception at once, or performs steps. -/
inductive Plan where
  | reply (status : Status) (info : Byte) (off16 : Half)
  | raise (e : Exception)
  | steps (ops : List Op)
deriving DecidableEq, Repr

/-- Carry out a command, as far as the span goes. -/
def carryOut : Plan → Span → State → State
  | .reply status info off16, span, s => respondIn status info off16 span s
  | .raise e, span, s => raiseIn e span s
  | .steps ops, span, s => performIn ops span s

/-- Go on with a command that waits, now that what it waits for has come. -/
def State.resume (s : State) (b : Busy) (span : Span) : State :=
  match b.wait with
  | .answer reg val => awaitAnswer reg val b.rest (performIn b.rest) span s.idle
  | .delayReturn => awaitReturn b.rest (performIn b.rest) span s.idle

/-- A command in progress in one step: it goes on if the environment serves it and stays as it is if not; no other command is
accepted (70_reset_and_hazards.md R163, R170). -/
def State.advance (s : State) (b : Busy) (span : Span) : State := if s.env.serves b.wait then s.resume b span else s

/-! ### The reset input (70_reset_and_hazards.md R160) -/

/-- The fate of the write a command in progress waits for, when it is abandoned. -/
def abandonedFates : Option Busy → List Fate
  | some ⟨.answer _ _, _⟩ => [.abandoned]
  | some ⟨.delayReturn, _⟩ => []
  | none => []

/-- The image when a command in progress is abandoned: whether the write it waits for has changed its register will never be known
(DEDUCED, log entry 7). -/
def abandonedImage : Option Busy → Memory → Memory
  | some ⟨.answer reg _, _⟩, m => m.forget reg.toNat
  | some ⟨.delayReturn, _⟩, m => m
  | none, m => m

/-- The command in progress, if any, is abandoned: nothing further is emitted and no response is given. The environment is left as it
is: an answer or a return not taken yet is still to come (DESIGN CHOICE, log entry 16). -/
def State.abandon (s : State) : State :=
  { s with busy := none, fates := s.fates ++ abandonedFates s.busy, image := abandonedImage s.busy s.image }

/-- Reset asserted: a command in progress is abandoned without a response, INIT_DONE is 0 and A2P is idle; nothing is emitted and
nothing accepted; the configuration stays (10_state.md R27, 70_reset_and_hazards.md R160). -/
def State.holdReset (s : State) : State := { s.abandon with initDone := false }

/-- The reset input in the course of the coming step. -/
def State.resetNow (s : State) : ResetInput := s.resetLine.headD .released

/-- The inputs of the coming step are taken: its reset input, and what the environment has in store from now on. -/
def State.tick (s : State) : State :=
  { s with
    resetLine := s.resetLine.tail
    env := s.envLine.headD s.env
    envLine := s.envLine.tail }

end Sys2Proof.Machine
end

