-- ==== Sys2Proof/Machine/Convert.lean ====
section
/-! DEFINITION. Machine/Convert.lean: the angle-to-off-count converter and the command CONV (40_convert.md). -/

namespace Sys2Proof.Machine

/-- Division truncating toward zero (40_convert.md R80). -/
def tdiv (a b : Int) : Int := a.tdiv b

/-- The linear map (40_convert.md R81): the product is formed first and exactly, the quotient is truncated, then `b0` is added. -/
def linearMap (x a0 a1 b0 b1 : Int) : Int := b0 + tdiv ((x - a0) * (b1 - b0)) (a1 - a0)

/-- Stage 1, angle to pulse width in microseconds (40_convert.md R82). -/
def pulse (angle : Int) : Int := linearMap angle angleInMin angleInMax pulseMinUs pulseMaxUs

/-- Stage 2, pulse width to ticks (40_convert.md R83). -/
def pulseToOff (pulseUs : Int) : Int := linearMap pulseUs 0 frameUs 0 frameTicks

/-- The converter `OffCount(ANGLE)` (40_convert.md R84): no clamping anywhere (R86). -/
def offCount (angle : Int) : Int := pulseToOff (pulse angle)

/-- OFF16 = OFF[15:0], two's complement (40_convert.md R85). -/
def off16 (angle : Int) : Half := BitVec.ofInt 16 (offCount angle)

/-- What CONV does: `respond(OK, 0, OFF[15:0])` (40_convert.md R90). -/
def convPlan (angle : Int) : Plan := .reply .ok 0 (off16 angle)

/-- CONV (40_convert.md R90). -/
def execConv (angle : Int) (s : State) : Host.Outcome State Fault Refusal := .next (carryOut (convPlan angle) .whole s)

end Sys2Proof.Machine
end

