-- ==== Sys2Proof/Machine/Init.lean ====
section
/-! DEFINITION. Machine/Init.lean: the initialisation sequence and the command INIT (42_init.md). -/

namespace Sys2Proof.Machine

/-- `InitSequence()` (42_init.md R121), numbered as there. -/
def initSequence (c : Config) : List Op :=
  -- step 1
  (if c.softResetEn then [.memWrite regMode1 mode1Reset, .delay c.delayMs] else []) ++
  -- step 2
  [.memWrite regMode1 mode1SleepAi] ++
  -- step 3
  [.memWrite regPreScale c.prescale, .delay c.delayMs] ++
  -- step 4
  formPair regAllOnL onCount ++
  -- step 5 (R120)
  formPair regAllOffL (off16 centerAngle) ++
  -- step 6
  [.memWrite regMode1 mode1Wake] ++ holdIf c.wakeSettleEn c ++
  -- step 7
  [.setInitDone]

/-- The init sequence where INIT_DONE = 0, and nothing where it has completed (42_init.md R122). -/
def lazyInit (c : Config) (initDone : Bool) : List Op := if initDone then [] else initSequence c

/-- What INIT does (42_init.md R125). -/
def initPlan (c : Config) (initDone : Bool) : Plan := .steps (lazyInit c initDone)

/-- INIT (42_init.md R125). -/
def execInit (s : State) : Host.Outcome State Fault Refusal := .next (carryOut (initPlan s.cfg s.initDone) .whole s)

end Sys2Proof.Machine
end

