-- ==== Sys2Proof/Machine/Servo.lean ====
section
/-! DEFINITION. Machine/Servo.lean: the command SERVO (41_servo_write.md). -/

namespace Sys2Proof.Machine

/-- The steps of a SERVO with a valid channel (41_servo_write.md R106): the lazy init, the OFF pair low byte first (R107), the
post-write delay (R108). -/
def servoOps (c : Config) (initDone : Bool) (ch : Nat) (angle : Int) : List Op :=
  lazyInit c initDone ++ formPair (offLowReg ch) (off16 angle) ++ holdIf c.postWriteDelayEn c

/-- What SERVO does: the channel check comes before any event and before the lazy init (41_servo_write.md R105, R106). -/
def servoPlan (c : Config) (initDone : Bool) (ch : Nat) (angle : Int) : Plan :=
  if channelValid ch then .steps (servoOps c initDone ch angle) else .raise (.invalidChannel ch)

/-- SERVO (41_servo_write.md R106). -/
def execServo (ch : Nat) (angle : Int) (s : State) : Host.Outcome State Fault Refusal :=
  .next (carryOut (servoPlan s.cfg s.initDone ch angle) .whole s)

end Sys2Proof.Machine
end

