-- ==== Sys2Proof/Machine/Dispatch.lean ====
section
/-! DEFINITION. Machine/Dispatch.lean: the meaning of each command, one arm per constructor of Instr. -/

namespace Sys2Proof.Machine

def exec (i : Instr) (s : State) : Host.Outcome State Fault Refusal :=
  match i with
  | .conv angle => Sys2Proof.Machine.execConv angle s
  | .servo ch angle => Sys2Proof.Machine.execServo ch angle s
  | .init => Sys2Proof.Machine.execInit s

end Sys2Proof.Machine
end

