-- ==== Sys2Proof/Machine/Port.lean ====
section
/-! DEFINITION. Machine/Port.lean: the command port (30_encoding.md R60, R62, R65; 70_reset_and_hazards.md R163, R172). -/

namespace Sys2Proof.Machine

/-- The command port after the word at its head is taken. -/
def State.takeCommand (s : State) : State := { s with commands := s.commands.tail }

/-- Accept a command word: decode it and run the command; a word that is no command raises IllegalCommand (60_exceptions.md
R143). -/
def acceptWord (cmd : Word) (s : State) : Host.Outcome State Fault Refusal :=
  match decode cmd with
  | .ok i => exec i s
  | .error _ => .next (s.raise .illegalCommand)

/-- A2P idle: take the host's next command word, or wait for one (70_reset_and_hazards.md R172). -/
def acceptNext (s : State) : Host.Outcome State Fault Refusal :=
  match s.commands with
  | [] => .next s
  | cmd :: _ => acceptWord cmd s.takeCommand

/-- Reset released: go on with the command in progress, or accept the next one. -/
def runReleased (s : State) : Host.Outcome State Fault Refusal :=
  match s.busy with
  | some b => .next (s.advance b .whole)
  | none => acceptNext s

/-- What a command does from `s`. -/
def planOf (i : Instr) (s : State) : Plan :=
  match i with
  | .conv angle => convPlan angle
  | .servo ch angle => servoPlan s.cfg s.initDone ch angle
  | .init => initPlan s.cfg s.initDone

/-- What accepting a command word does from `s`. -/
def wordPlan (cmd : Word) (s : State) : Plan :=
  match decode cmd with
  | .ok i => planOf i s
  | .error _ => .raise .illegalCommand

/-- What A2P does in a step, as far as the span goes. With the span `whole` it is `runReleased`
(`runReleased_eq_act` in Laws/Step.lean). -/
def State.act (s : State) (span : Span) : State :=
  match s.busy with
  | some b => s.advance b span
  | none =>
    match s.commands with
    | [] => s
    | cmd :: _ => carryOut (wordPlan cmd s) span s.takeCommand

/-- One step, by the reset input in its course (70_reset_and_hazards.md R160). -/
def runStep (s : State) : Host.Outcome State Fault Refusal :=
  match s.resetNow with
  | .released => runReleased s.tick
  | .asserted => .next s.tick.holdReset
  | .during n => .next (s.tick.act (.moves n)).holdReset

/-- A reset line whose next step is released. -/
def releaseFirst (line : List ResetInput) : List ResetInput :=
  if line.headD .released = .released then line else .released :: line

/-- The host issues `cmd` as its next command word, with A2P idle (a command in progress is abandoned, as by a reset) and reset
released at the next step. On an idle state whose reset is released it changes `commands` and nothing else. -/
def State.present (s : State) (cmd : Word) : State :=
  { s.abandon with commands := cmd :: s.commands, resetLine := releaseFirst s.resetLine }

end Sys2Proof.Machine
end

