-- ==== Sys2Proof/Machine/Step.lean ====
section
/-! DEFINITION. Machine/Step.lean: one step of the machine. A step runs one command until it ends, waits or is cut off by reset, goes
on with a waiting command, or is a step in reset (log entries 4 and 6). -/

namespace Sys2Proof.Machine

/-- One step: the reset input first, then the command in progress, then the host's next command word. -/
def step (s : State) : Host.Outcome State Fault Refusal := runStep s

/-- `s` with this command word as the next one the host issues, accepted at the very next step (log entry 9). -/
def State.withFetchWord (s : State) (nbits w : Nat) : State := s.present (tableWord nbits w)

end Sys2Proof.Machine
end

