-- ==== Sys2Proof/Safety.lean ====
section
/-! DEFINITION. Safety.lean: what claims about A2P are stated in: the traces the spec lists, an environment that serves a command,
the register image of a trace, legal events and responses, the invariant of the machine, and the observable result of a run. -/

namespace Sys2Proof.Machine

/-! ### The traces of the spec, written out from its listings -/

/-- The init trace in each configuration (42_init.md R126). -/
def initTrace (c : Config) : List Event :=
  (if c.softResetEn then [.w 0x00 0x80, .d c.delayMs] else []) ++
  [.w 0x00 0x11, .w 0xFE c.prescale, .d c.delayMs, .w 0xFA 0x00, .w 0xFB 0x00, .w 0xFC 0x33, .w 0xFD 0x01, .w 0x00 0x01] ++
  (if c.wakeSettleEn then [.d c.delayMs] else [])

/-- The two writes of a SERVO (41_servo_write.md R106): `W(0x08 + 4*CH + 2, OFF & 0xFF)`, `W(0x08 + 4*CH + 3, (OFF >> 8) & 0xFF)`. -/
def pairTrace (ch : Nat) (angle : Int) : List Event :=
  [.w (BitVec.ofNat 8 (0x08 + 4 * ch + 2)) (BitVec.ofInt 8 (offCount angle)),
   .w (BitVec.ofNat 8 (0x08 + 4 * ch + 3)) (BitVec.ofInt 8 (offCount angle >>> (8 : Nat)))]

/-- The trace of a SERVO with a valid channel when every write is answered done (41_servo_write.md R106). -/
def servoTrace (c : Config) (initDone : Bool) (ch : Nat) (angle : Int) : List Event :=
  (if initDone then [] else initTrace c) ++ pairTrace ch angle ++ (if c.postWriteDelayEn then [.d c.delayMs] else [])

/-- The trace of an INIT when every write is answered done (42_init.md R125). -/
def initCommandTrace (c : Config) (initDone : Bool) : List Event := if initDone then [] else initTrace c

/-- How many writes a trace holds. -/
def writeCount : List Event → Nat
  | [] => 0
  | .w _ _ :: es => writeCount es + 1
  | .d _ :: es => writeCount es

/-! ### The environment -/

/-- ALL_DONE (92_eei_decisions.md D22): every write is answered done, and every delay returns. -/
def Env.allDone (e : Env) : Prop := (∀ a ∈ e.answers, a = .done) ∧ e.standing = some .done ∧ e.delays = .always

/-- The environment answers every write of these events done and returns from every delay; what is then left of it. -/
def Env.serve : List Event → Env → Option Env
  | [], e => some e
  | .w _ _ :: es, e =>
    match e.takeAnswer with
    | some (.done, e') => Env.serve es e'
    | some (.failed, _) => none
    | none => none
  | .d _ :: es, e =>
    match e.takeReturn with
    | some e' => Env.serve es e'
    | none => none

/-- What is left of the environment when A2P can emit its next event: all of it when no command is in progress, else what is left once
the awaited answer, done, or the awaited return has been taken; none if that does not come. -/
def Env.afterWait : Option Busy → Env → Option Env
  | none, e => some e
  | some ⟨.answer r v, _⟩, e => Env.serve [.w r v] e
  | some ⟨.delayReturn, _⟩, e => e.takeReturn

/-- What a command with these events emits in this environment: every event up to and with the first one that is not served (a
write answered failed, a write never answered, a delay that never returns). -/
def emitted : List Event → Env → List Event
  | [], _ => []
  | .w r v :: es, e => .w r v ::
    (match e.takeAnswer with
     | some (.done, e') => emitted es e'
     | some (.failed, _) => []
     | none => [])
  | .d ms :: es, e => .d ms ::
    (match e.takeReturn with
     | some e' => emitted es e'
     | none => [])

/-- The register of the first write of these events that is answered failed; none if no write is answered failed before the events
end or a wait does not end. -/
def firstFailure : List Event → Env → Option Byte
  | [], _ => none
  | .w r _ :: es, e =>
    match e.takeAnswer with
    | some (.done, e') => firstFailure es e'
    | some (.failed, _) => some r
    | none => none
  | .d _ :: es, e =>
    match e.takeReturn with
    | some e' => firstFailure es e'
    | none => none

/-! ### The register image (20_memory.md R55) -/

/-- The image of a trace with the fates of its writes: a write answered done sets its register, one answered failed makes it unknown,
and one not answered yet changes nothing; one abandoned by a reset makes it unknown (DEDUCED, log entry 7). -/
def imageOf : List Event → List Fate → Memory → Memory
  | [], _, t => t
  | .d _ :: es, fs, t => imageOf es fs t
  | .w r v :: es, .answered .done :: fs, t => imageOf es fs (t.write r.toNat v)
  | .w r _ :: es, .answered .failed :: fs, t => imageOf es fs (t.forget r.toNat)
  | .w r _ :: es, .abandoned :: fs, t => imageOf es fs (t.forget r.toNat)
  | .w _ _ :: es, [], t => imageOf es [] t

/-- The image after these events when every write is answered done. -/
def writeAll : List Event → Memory → Memory
  | [], t => t
  | .w r v :: es, t => writeAll es (t.write r.toNat v)
  | .d _ :: es, t => writeAll es t

/-- The register and the byte of each write of these events, in order. -/
def writes : List Event → List (Byte × Byte)
  | [] => []
  | .w r v :: es => (r, v) :: writes es
  | .d _ :: es => writes es

/-- The registers these events write. -/
def writtenRegs : List Event → List Nat
  | [] => []
  | .w r _ :: es => r.toNat :: writtenRegs es
  | .d _ :: es => writtenRegs es

/-- The event of a step of a command; setting INIT_DONE has none. -/
def Op.events : Op → List Event
  | .memWrite r v => [.w r v]
  | .delay ms => [.d ms]
  | .setInitDone => []

/-- The events of the steps of a command, in order. -/
def opsEvents : List Op → List Event
  | [] => []
  | op :: rest => op.events ++ opsEvents rest

/-! ### Legal events and responses -/

/-- The register addresses A2P can ever write (20_memory.md R44). -/
def writableRegs : List Nat :=
  [0x00] ++ (List.range 16).flatMap (fun n => [0x0A + 4 * n, 0x0B + 4 * n]) ++ [0xFA, 0xFB, 0xFC, 0xFD, 0xFE]

/-- A write goes to a writable register (20_memory.md R44); a delay asks for DELAY_MS (30_encoding.md R64). -/
def Event.legal (c : Config) : Event → Prop
  | .w r _ => r.toNat ∈ writableRegs
  | .d ms => ms = c.delayMs

/-- STATUS of a response word (30_encoding.md R63). -/
def statusField (r : Word) : Nat := (r.extractLsb' 28 4).toNat

/-- INFO of a response word (30_encoding.md R63). -/
def infoField (r : Word) : Nat := (r.extractLsb' 16 8).toNat

/-- OFF16 of a response word (30_encoding.md R63). -/
def off16Field (r : Word) : Nat := (r.extractLsb' 0 16).toNat

/-- A response word as 30_encoding.md R63 and 60_exceptions.md R140 allow it. -/
structure LegalResponse (r : Word) : Prop where
  zeroBits : r.extractLsb' 24 4 = 0
  statusRange : statusField r ≤ 3
  okInfo : statusField r = 0 → infoField r = 0
  channelInfo : statusField r = 1 → 15 < infoField r
  transportInfo : statusField r = 2 → infoField r ∈ writableRegs
  illegalInfo : statusField r = 3 → infoField r = 0
  off16OnlyOk : statusField r ≠ 0 → off16Field r = 0

/-! ### The invariant -/

/-- The steps of some command of this configuration that can wait. -/
def CommandOps (c : Config) (ops : List Op) : Prop :=
  ops = initSequence c ∨ ∃ d ch angle, ch ≤ 15 ∧ ops = servoOps c d ch angle

/-- The step a wait belongs to. -/
def Wait.op (c : Config) : Wait → Op
  | .answer r v => .memWrite r v
  | .delayReturn => .delay c.delayMs

/-- The event a wait belongs to. -/
def Wait.event (c : Config) : Wait → Event
  | .answer r v => .w r v
  | .delayReturn => .d c.delayMs

/-- How many writes a command in progress has still unanswered: one while it waits for an answer. -/
def unanswered : Option Busy → Nat
  | some ⟨.answer _ _, _⟩ => 1
  | some ⟨.delayReturn, _⟩ => 0
  | none => 0

/-- The position of a command in progress (10_state.md R26): what it waits for is the last event emitted, its steps left are the
end of some command's steps, and INIT_DONE is still to be set exactly if that step is left. -/
structure Position (s : State) (b : Busy) : Prop where
  lastEvent : ∃ before, s.trace = before ++ [b.wait.event s.cfg]
  inCommand : ∃ ops, CommandOps s.cfg ops ∧ (b.wait.op s.cfg :: b.rest) <:+ ops
  initPending : s.initDone = false ↔ Op.setInitDone ∈ b.rest

/-- The invariant of the machine. -/
structure MachineInv (s : State) : Prop where
  /-- the image keeps its canonical form -/
  imageCanonical : Memory.wf s.image = true
  /-- the image is the fold of the trace (20_memory.md R55) -/
  imageIsFold : s.image = imageOf s.trace s.fates []
  /-- each W has one fate but the one still waited for -/
  fatesMatch : writeCount s.trace = s.fates.length + unanswered s.busy
  /-- only legal events have been emitted -/
  eventsLegal : ∀ e ∈ s.trace, Event.legal s.cfg e
  /-- only legal responses have been given -/
  responsesLegal : ∀ r ∈ s.responses, LegalResponse r
  /-- a command in progress is at a position of its command -/
  position : ∀ b, s.busy = some b → Position s b

/-! ### The observable result of a run (70_reset_and_hazards.md R172) when every answer is done -/

/-- The trace of a command word. -/
def wordTrace (c : Config) (initDone : Bool) (cmd : Word) : List Event :=
  match decode cmd with
  | .ok (.conv _) => []
  | .ok (.servo ch angle) => if ch ≤ 15 then servoTrace c initDone ch angle else []
  | .ok .init => initCommandTrace c initDone
  | .error _ => []

/-- The response to a command word. -/
def wordResponse (cmd : Word) : Word :=
  match decode cmd with
  | .ok (.conv angle) => responseWord .ok 0 (BitVec.ofInt 16 (offCount angle))
  | .ok (.servo ch _) => if ch ≤ 15 then 0x00000000 else responseWord .invalidChannel (BitVec.ofNat 8 ch) 0
  | .ok .init => 0x00000000
  | .error _ => 0x30000000

/-- INIT_DONE after a command word. -/
def wordInitDone (initDone : Bool) (cmd : Word) : Bool :=
  match decode cmd with
  | .ok (.conv _) => initDone
  | .ok (.servo ch _) => initDone || decide (ch ≤ 15)
  | .ok .init => true
  | .error _ => initDone

/-- The concatenation of the traces of a list of command words. -/
def runTrace (c : Config) : Bool → List Word → List Event
  | _, [] => []
  | d, cmd :: rest => wordTrace c d cmd ++ runTrace c (wordInitDone d cmd) rest

/-! ### Exact quotients -/

/-- Truncation of a rational number toward zero (40_convert.md R80). -/
def truncQ (q : Rat) : Int := if 0 ≤ q then ⌊q⌋ else ⌈q⌉

/-! ### The 32-bit datapath (00_scope.md R6, 40_convert.md R88) -/

/-- The converter computed in signed 32-bit words that wrap. -/
def offCount32 (angle : Half) : Word :=
  ((700 + (angle.signExtend 32 * 1600).sdiv 180) * 4096).sdiv 20000

end Sys2Proof.Machine
end

