-- ==== Sys2Proof/Certificates/Slice0/Obligations.lean ====
section
/-! DEFINITION. Certificates/Slice0/Obligations.lean: the statements for the provers. -/

open Sys2Proof Sys2Proof.Machine

/-! ### Reset and the reset input -/

/-- 10_state.md R27: "After reset INIT_DONE = 0", the configuration keeps the values it was built with, and no step outside reset
clears the flag. What a step in reset does is `ResetInputAbandonsCommand` and `ResetInMidCommand`. -/
def Obligations.ResetAndOnlyResetClearsInitDone : Prop :=
  State.reset.initDone = false ∧
  (∀ c : Config, (State.resetWith c).initDone = false ∧ (State.resetWith c).cfg = c) ∧
  (∀ s t : State, step s = .next t → s.resetNow = .released → s.initDone = true → t.initDone = true)

/-- 70_reset_and_hazards.md R160 (the spec's decision D10): a step in reset abandons the command in progress without a response,
emits nothing and accepts nothing. The fate it records for an unanswered write, that the image no longer knows its register, and that
an answer or return not taken stays in the environment are the model's own (log entries 7, 8 and 16). -/
def Obligations.ResetInputAbandonsCommand : Prop :=
  ∀ s : State, s.resetNow = .asserted →
    step s = .next { s with
      resetLine := s.resetLine.tail
      env := s.envLine.headD s.env
      envLine := s.envLine.tail
      initDone := false
      busy := none
      fates := s.fates ++ (match s.busy with
        | some ⟨.answer _ _, _⟩ => [.abandoned]
        | _ => [])
      image := match s.busy with
        | some ⟨.answer reg _, _⟩ => s.image.forget reg.toNat
        | _ => s.image }

/-- 70_reset_and_hazards.md R160 (the spec's decision D10): a step in the course of which reset is asserted, against the same step
with reset released. It takes the same inputs, what it emits is a first part of what the other emits, and it leaves A2P idle with
INIT_DONE = 0; either it gives no response, or reset comes after the other step's last move and it differs by the reset alone. -/
def Obligations.ResetInMidCommand : Prop :=
  ∀ (s t u : State) (n : Nat), s.resetNow = .released → step s = .next t →
    step { s with resetLine := .during n :: s.resetLine.tail } = .next u →
    u.initDone = false ∧ u.busy = none ∧ u.cfg = t.cfg ∧ u.commands = t.commands ∧
    u.resetLine = t.resetLine ∧ u.envLine = t.envLine ∧
    s.trace <+: u.trace ∧ u.trace <+: t.trace ∧
    (u.responses = s.responses ∨ u = t.holdReset)

/-- 70_reset_and_hazards.md R160, R173 ("be asserted at any time, also in mid-command"; the spec's decision D10): for every step there
is an assertion of reset in its course at each of these moments: after any first part of the events; before any move, with nothing
taken from the environment; after any event and before its answer or return is taken (a write is then abandoned); after any first
part of the events with all its answers and returns taken; after the last move but the response; and after all the step does. What
the environment has left and the fates are in the model's terms (log entries 3, 8 and 16). -/
def Obligations.ResetReachesEveryMoment : Prop :=
  ∀ s t : State, s.resetNow = .released → step s = .next t →
    (∀ es : List Event, s.trace ++ es <+: t.trace →
      ∃ (n : Nat) (u : State), step { s with resetLine := .during n :: s.resetLine.tail } = .next u ∧
        u.trace = s.trace ++ es ∧ u.responses = s.responses) ∧
    (∃ (n : Nat) (u : State), step { s with resetLine := .during n :: s.resetLine.tail } = .next u ∧
      u.trace = s.trace ∧ u.responses = s.responses ∧ u.env = s.tick.env ∧ u.fates = s.fates ++ abandonedFates s.busy) ∧
    (∀ (e : Env) (es : List Event) (ev : Event), Env.afterWait s.busy s.tick.env = some e → s.trace ++ es ++ [ev] <+: t.trace →
      ∃ (n : Nat) (u : State), step { s with resetLine := .during n :: s.resetLine.tail } = .next u ∧
        u.trace = s.trace ++ es ++ [ev] ∧ u.responses = s.responses ∧ Env.serve es e = some u.env ∧
        (∀ r v : Byte, ev = .w r v → u.image.read r.toNat = none ∧ ∃ before, u.fates = before ++ [.abandoned])) ∧
    (∀ (e e' : Env) (es : List Event), Env.afterWait s.busy s.tick.env = some e → s.trace ++ es <+: t.trace →
      Env.serve es e = some e' →
      ∃ (n : Nat) (u : State), step { s with resetLine := .during n :: s.resetLine.tail } = .next u ∧
        u.trace = s.trace ++ es ∧ u.responses = s.responses ∧ u.env = e' ∧ .abandoned ∉ u.fates.drop s.fates.length) ∧
    (t.busy = none → ∃ (n : Nat) (u : State), step { s with resetLine := .during n :: s.resetLine.tail } = .next u ∧
      u.trace = t.trace ∧ u.fates = t.fates ∧ u.env = t.env ∧ u.responses = s.responses) ∧
    (∃ n : Nat, step { s with resetLine := .during n :: s.resetLine.tail } = .next t.holdReset)

/-! ### Encoding and decoding -/

/-- 30_encoding.md R60 to R62, R66: the word of a well-formed command decodes to that command, with every operand. -/
def Obligations.DecodeOfEncode : Prop :=
  ∀ i : Instr, i.wellFormed = true → decode (encode i) = .ok i

/-- 30_encoding.md R60 to R62: each word has at most one meaning; a decoded command is well formed and its word is the word. -/
def Obligations.EncodeOfDecode : Prop :=
  ∀ (cmd : Word) (i : Instr), decode cmd = .ok i → i.wellFormed = true ∧ encode i = cmd

/-- 30_encoding.md R61, R62: the masks and matches of the opcode map and the operands, read from the word as numbers. -/
def Obligations.DecodeSelectsRow : Prop :=
  ∀ (cmd : Word) (i : Instr), decode cmd = .ok i ↔
    (cmd &&& 0xFFFF0000#32 = 0x10000000#32 ∧ i = .conv (cmd.setWidth 16).toInt) ∨
    (cmd &&& 0xFF000000#32 = 0x20000000#32 ∧ i = .servo (cmd.toNat / 0x10000 % 0x100) (cmd.setWidth 16).toInt) ∨
    (cmd &&& 0xFFFFFFFF#32 = 0x30000000#32 ∧ i = .init)

/-- 30_encoding.md R65 (the spec's decision D11): which words are illegal. -/
def Obligations.IllegalWordsAreThoseOfR65 : Prop :=
  ∀ cmd : Word, (∃ e, decode cmd = .error e) ↔
    (cmd.toNat / 0x10000000 = 0 ∨ 4 ≤ cmd.toNat / 0x10000000) ∨
    cmd.toNat / 0x1000000 % 0x10 ≠ 0 ∨
    (cmd.toNat / 0x10000000 = 1 ∧ cmd.toNat / 0x10000 % 0x100 ≠ 0) ∨
    (cmd.toNat / 0x10000000 = 3 ∧ (cmd.toNat / 0x10000 % 0x100 ≠ 0 ∨ cmd.toNat % 0x10000 ≠ 0))

/-- 30_encoding.md R66: the command words of the assembler syntax, as numbers. -/
def Obligations.EncodeIsAssemblerWord : Prop :=
  (∀ angle : Int, -32768 ≤ angle → angle ≤ 32767 →
    ((encode (.conv angle)).toNat : Int) = 0x10000000 + angle % 65536) ∧
  (∀ (ch : Nat) (angle : Int), ch ≤ 255 → -32768 ≤ angle → angle ≤ 32767 →
    ((encode (.servo ch angle)).toNat : Int) = 0x20000000 + ch * 65536 + angle % 65536) ∧
  encode .init = 0x30000000#32

/-- 30_encoding.md R66, worked encodings, and nearest illegal words of 95_test_vectors.md V6. -/
def Obligations.DecodeOfWorkedWords : Prop :=
  decode 0x1000005A#32 = .ok (.conv 90) ∧ decode 0x1000FFFF#32 = .ok (.conv (-1)) ∧
  decode 0x20000000#32 = .ok (.servo 0 0) ∧ decode 0x200F00B4#32 = .ok (.servo 15 180) ∧
  decode 0x2011005A#32 = .ok (.servo 17 90) ∧ decode 0x30000000#32 = .ok .init ∧
  decode 0x1001005A#32 = .error .convChannelNotZero ∧ decode 0x2100005A#32 = .error .reservedNotZero ∧
  decode 0x30000001#32 = .error .initOperandNotZero ∧ decode 0x40000000#32 = .error .noSuchOperation

/-- 30_encoding.md R63, 60_exceptions.md R140: the response word as a number, with the four status codes. -/
def Obligations.ResponseWordLayout : Prop :=
  ∀ (info : Byte) (o : Half),
    (responseWord .ok info o).toNat = info.toNat * 0x10000 + o.toNat ∧
    (responseWord .invalidChannel info o).toNat = 1 * 0x10000000 + info.toNat * 0x10000 + o.toNat ∧
    (responseWord .transportError info o).toNat = 2 * 0x10000000 + info.toNat * 0x10000 + o.toNat ∧
    (responseWord .illegalCommand info o).toNat = 3 * 0x10000000 + info.toNat * 0x10000 + o.toNat

/-- 30_encoding.md R64: what an event drives on the write channel and on the delay channel; the answer bit. -/
def Obligations.EventChannelWords : Prop :=
  (∀ r v : Byte, (Event.w r v).delayChannel = none ∧
    ∃ w, (Event.w r v).writeChannel = some w ∧ w.toNat = 0x6A * 0x10000 + r.toNat * 0x100 + v.toNat) ∧
  (∀ ms : Word, (Event.d ms).writeChannel = none ∧ (Event.d ms).delayChannel = some ms) ∧
  Answer.done.bit = 0#1 ∧ Answer.failed.bit = 1#1

/-! ### The step -/

/-- A step of an idle A2P out of reset runs the command its next word decodes to, with the word taken off the command port, one
entry off the reset line, and what the environment has in store from this step on (10_state.md R22, 30_encoding.md R62). -/
def Obligations.StepRunsDecodedCommand : Prop :=
  ∀ (s : State) (cmd : Word) (rest : List Word) (i : Instr),
    s.resetNow = .released → s.busy = none → s.commands = cmd :: rest → decode cmd = .ok i →
    step s = exec i { s with
      resetLine := s.resetLine.tail, env := s.envLine.headD s.env, envLine := s.envLine.tail, commands := rest }

/-- 60_exceptions.md R143, 30_encoding.md R65 (the spec's decision D11): a word that selects no row of R62 is answered
ILLEGAL_COMMAND; it emits no event and changes no state. -/
def Obligations.IllegalWordAnswered : Prop :=
  ∀ (s : State) (cmd : Word) (rest : List Word),
    s.resetNow = .released → s.busy = none → s.commands = cmd :: rest →
    cmd &&& 0xFFFF0000#32 ≠ 0x10000000#32 → cmd &&& 0xFF000000#32 ≠ 0x20000000#32 → cmd ≠ 0x30000000#32 →
    step s = .next { s.tick with
      commands := rest
      responses := s.responses ++ [0x30000000#32] }

/-- 70_reset_and_hazards.md R172: "A2P never stops of itself": every step answers a next state, and idle with no command it
stays idle, with nothing emitted and nothing answered. -/
def Obligations.StepNeverStops : Prop :=
  (∀ s : State, ∃ t, step s = .next t) ∧
  (∀ s : State, s.resetNow = .released → s.busy = none → s.commands = [] → step s = .next s.tick)

/-- 70_reset_and_hazards.md R163: a command in progress accepts no other command; 20_memory.md R47: while what it waits for does not
come it stays as it is. -/
def Obligations.BusyAcceptsNoCommand : Prop :=
  (∀ (s t : State) (b : Busy), s.busy = some b → step s = .next t → t.commands = s.commands) ∧
  (∀ (s : State) (reg val : Byte) (rest : List Op), s.resetNow = .released → s.busy = some ⟨.answer reg val, rest⟩ →
    s.tick.env.answers = [] → s.tick.env.standing = none → step s = .next s.tick) ∧
  (∀ (s : State) (rest : List Op), s.resetNow = .released → s.busy = some ⟨.delayReturn, rest⟩ →
    s.tick.env.delays = .only 0 → step s = .next s.tick)

/-- 30_encoding.md R63, 60_exceptions.md R140, R145: a command word accepted is answered with exactly one legal response word, or
the command is still in progress and has not been answered. -/
def Obligations.OneResponsePerCommand : Prop :=
  ∀ (s t : State) (cmd : Word) (rest : List Word),
    s.resetNow = .released → s.busy = none → s.commands = cmd :: rest → step s = .next t →
    t.commands = rest ∧
    ((t.busy = none ∧ ∃ r, LegalResponse r ∧ t.responses = s.responses ++ [r]) ∨
     (t.busy ≠ none ∧ t.responses = s.responses))

/-- 70_reset_and_hazards.md R170: under ALL_DONE (92_eei_decisions.md D22) every command word is answered in one step, and ALL_DONE
still holds. -/
def Obligations.CommandsEndWhenAllDone : Prop :=
  ∀ (s : State) (cmd : Word) (rest : List Word),
    s.resetNow = .released → s.busy = none → s.commands = cmd :: rest → s.tick.env.allDone →
    ∃ t, step s = .next t ∧ t.busy = none ∧ t.responses.length = s.responses.length + 1 ∧ t.env.allDone

/-- 70_reset_and_hazards.md R170: a command in progress goes on and ends, with one response, at the first step out of reset at which
ALL_DONE holds. -/
def Obligations.WaitingCommandEndsWhenAllDone : Prop :=
  ∀ (s : State) (b : Busy), s.resetNow = .released → s.busy = some b → s.tick.env.allDone →
    ∃ t, step s = .next t ∧ t.busy = none ∧ t.commands = s.commands ∧
      t.responses = s.responses ++ [0x00000000#32] ∧
      t.trace = s.trace ++ opsEvents b.rest ∧ t.env.allDone

/-- ALL_DONE serves every trace and consumes one answer per write (00_scope.md R12). -/
def Obligations.AllDoneServesEveryTrace : Prop :=
  ∀ (es : List Event) (e : Env), e.allDone → Env.serve es e = some { e with answers := e.answers.drop (writeCount es) }

/-- No step changes the configuration (10_state.md R24), and what has been emitted or answered stays so. -/
def Obligations.StepKeepsConfigAndOutputs : Prop :=
  ∀ s t : State, step s = .next t →
    t.cfg = s.cfg ∧ s.trace <+: t.trace ∧ s.responses <+: t.responses ∧ s.fates <+: t.fates

/-! ### The converter and CONV -/

/-- 40_convert.md R80: the definition of `tdiv`, its values, that it is the floor or the ceiling of the exact quotient, and the two
divisors of A2P. -/
def Obligations.TruncatingDivision : Prop :=
  (∀ a b : Int, b ≠ 0 → tdiv a b = a.sign * b.sign * ((a.natAbs / b.natAbs : Nat) : Int)) ∧
  (∀ b : Int, b ≠ 0 → tdiv 0 b = 0) ∧
  tdiv 7 2 = 3 ∧ tdiv (-7) 2 = -3 ∧ tdiv 7 (-2) = -3 ∧ tdiv (-7) (-2) = 3 ∧ tdiv (-1) 2 = 0 ∧
  (∀ a b : Int, b ≠ 0 → tdiv a b =
    if a = 0 ∨ (0 < a ∧ 0 < b) ∨ (a < 0 ∧ b < 0) then ⌊(a : Rat) / (b : Rat)⌋ else ⌈(a : Rat) / (b : Rat)⌉) ∧
  angleInMax - angleInMin = 180 ∧ frameUs - 0 = 20000

/-- 40_convert.md R81 to R84 with the spec's readings D15 and D16: each stage adds the truncated exact quotient to its base. -/
def Obligations.StagesTruncateExactQuotient : Prop :=
  (∀ x a0 a1 b0 b1 : Int, a1 ≠ a0 →
    linearMap x a0 a1 b0 b1 = b0 + truncQ (((x : Rat) - a0) * ((b1 : Rat) - b0) / ((a1 : Rat) - a0))) ∧
  (∀ angle : Int, pulse angle = 700 + truncQ ((angle : Rat) * 1600 / 180)) ∧
  (∀ angle : Int, offCount angle = truncQ ((pulse angle : Rat) * 4096 / 20000))

/-- 40_convert.md R82: stage 1, its fixed points, its interval and its sign. -/
def Obligations.PulseOfAngle : Prop :=
  (∀ angle : Int, pulse angle = 700 + tdiv (angle * 1600) 180) ∧
  pulse 0 = 700 ∧ pulse 90 = 1500 ∧ pulse 180 = 2300 ∧
  (∀ angle : Int, (700 ≤ pulse angle ∧ pulse angle ≤ 2300) ↔ (0 ≤ angle ∧ angle ≤ 180)) ∧
  (∀ angle : Int, pulse angle < 0 ↔ angle ≤ -79)

/-- 40_convert.md R87: the reduced forms, for every integer angle. -/
def Obligations.ReducedForms : Prop :=
  (∀ angle : Int, pulse angle = 700 + tdiv (angle * 80) 9) ∧
  (∀ p : Int, pulseToOff p = tdiv (p * 128) 625) ∧
  (∀ angle : Int, 0 ≤ angle → pulse angle = 700 + 80 * angle / 9) ∧
  (∀ p : Int, 0 ≤ p → pulseToOff p = 128 * p / 625)

/-- 40_convert.md R88: the bounds of every intermediate over the 16-bit angles. -/
def Obligations.IntermediatesFit32Bits : Prop :=
  ∀ angle : Int, -32768 ≤ angle → angle ≤ 32767 →
    (-52428800 ≤ angle * 1600 ∧ angle * 1600 ≤ 52428800) ∧
    (-290571 ≤ pulse angle ∧ pulse angle ≤ 291962) ∧
    (-1195876352 ≤ pulse angle * 4096 ∧ pulse angle * 4096 ≤ 1195876352) ∧
    (-59508 ≤ offCount angle ∧ offCount angle ≤ 59793)

/-- 40_convert.md R88, 00_scope.md R6: a datapath of signed 32-bit words that wrap computes the converter, for every angle word. -/
def Obligations.Datapath32ComputesOffCount : Prop :=
  ∀ a : Half, (offCount32 a).toInt = offCount (sext16 a) ∧ (offCount32 a).setWidth 16 = off16 (sext16 a)

/-- 40_convert.md R89 (a): the converter never decreases, and on 0 to 180 each degree adds 1 or 2 ticks. -/
def Obligations.OffCountMonotone : Prop :=
  (∀ a b : Int, a ≤ b → offCount a ≤ offCount b) ∧
  (∀ a : Int, 0 ≤ a → a < 180 → offCount (a + 1) = offCount a + 1 ∨ offCount (a + 1) = offCount a + 2)

/-- 40_convert.md R89 (c): where the off-count is a 12-bit value, and that no angle gives 4096. -/
def Obligations.OffCountTwelveBitExactly : Prop :=
  ∀ angle : Int, ((0 ≤ offCount angle ∧ offCount angle ≤ 4095) ↔ (-79 ≤ angle ∧ angle ≤ 2171)) ∧ offCount angle ≠ 4096

/-- 40_convert.md R85: LOW and HIGH are bits 7:0 and 15:8 of the two's-complement count (the spec's decision D5), and the split of a
count from 0 to 65535 gives the count back. -/
def Obligations.OffCountByteSplit : Prop :=
  ∀ angle : Int,
    ((lowByte (off16 angle)).toNat : Int) = offCount angle % 256 ∧
    ((highByte (off16 angle)).toNat : Int) = offCount angle / 256 % 256 ∧
    off16 angle = highByte (off16 angle) ++ lowByte (off16 angle) ∧
    (0 ≤ offCount angle → offCount angle ≤ 65535 →
      ((lowByte (off16 angle)).toNat : Int) + 256 * (highByte (off16 angle)).toNat = offCount angle)

/-- CONV in every state: the response is the converted angle, and nothing else changes (40_convert.md R90). -/
def Obligations.ConvRespondsOffCount : Prop :=
  ∀ (angle : Int) (s : State),
    exec (.conv angle) s = .next { s with
      responses := s.responses ++
        [(BitVec.ofInt 16 (tdiv ((700 + tdiv (angle * 1600) 180) * 4096) 20000)).setWidth 32] }

/-- 40_convert.md R90: the command word of CONV, what a step on it does, and the corner cases the rule lists. -/
def Obligations.ConvCommandWord : Prop :=
  (∀ (s : State) (a : Half) (rest : List Word),
    s.resetNow = .released → s.busy = none → s.commands = (0x10000000#32 ||| a.setWidth 32) :: rest →
    step s = .next { s.tick with
      commands := rest
      responses := s.responses ++
        [(BitVec.ofInt 16 (tdiv ((700 + tdiv (a.toInt * 1600) 180) * 4096) 20000)).setWidth 32] }) ∧
  off16 0 = 0x008F#16 ∧ offCount (-80) = -2 ∧ off16 (-80) = 0xFFFE#16 ∧ pulse (-79) = -2 ∧ offCount (-79) = 0 ∧
  offCount 32767 = 59793 ∧ off16 32767 = 0xE991#16 ∧ offCount (-32768) = -59508 ∧ off16 (-32768) = 0x178C#16 ∧
  0x10000000#32 ||| (90#16).setWidth 32 = 0x1000005A#32 ∧ responseWord .ok 0#8 (off16 90) = 0x00000133#32

/-! ### SERVO -/

/-- 41_servo_write.md R100: the four registers of a valid channel, and that the blocks tile 0x08 to 0x47 (20_memory.md R42). -/
def Obligations.ChannelBlocksTile : Prop :=
  (∀ ch ofs : Nat, ch ≤ 15 → ofs ≤ 3 → (channelReg ch ofs).toNat = 0x08 + 4 * ch + ofs ∧ (channelReg ch ofs).toNat ≤ 0x47) ∧
  (∀ ch ofs ch' ofs' : Nat, ch ≤ 15 → ofs ≤ 3 → ch' ≤ 15 → ofs' ≤ 3 →
    channelReg ch ofs = channelReg ch' ofs' → ch = ch' ∧ ofs = ofs') ∧
  (∀ a : Nat, 0x08 ≤ a → a ≤ 0x47 → ∃ ch ofs, ch ≤ 15 ∧ ofs ≤ 3 ∧ (channelReg ch ofs).toNat = a)

/-- 41_servo_write.md R105: a channel above 15 is rejected, in every environment and whether or not INIT_DONE is set: no event, no
init sequence, no state change; INFO is the channel. -/
def Obligations.ServoRejectsInvalidChannel : Prop :=
  ∀ (s : State) (ch : Nat) (angle : Int), 15 < ch → ch ≤ 255 →
    exec (.servo ch angle) s = .next { s with
      responses := s.responses ++ [0x10000000#32 + BitVec.ofNat 32 (ch * 0x10000)] }

/-- 41_servo_write.md R106 to R108: a SERVO with a valid channel whose events the environment serves ends with OK. Its trace is the
lazy init trace where INIT_DONE was 0, then the low byte, then the high byte, then the configured delay. -/
def Obligations.ServoCompletesWhenServed : Prop :=
  ∀ (s : State) (ch : Nat) (angle : Int) (e : Env), ch ≤ 15 →
    Env.serve (servoTrace s.cfg s.initDone ch angle) s.env = some e →
    exec (.servo ch angle) s = .next { s with
      initDone := true
      env := e
      trace := s.trace ++ servoTrace s.cfg s.initDone ch angle
      fates := s.fates ++ List.replicate (writeCount (servoTrace s.cfg s.initDone ch angle)) (.answered .done)
      responses := s.responses ++ [0x00000000#32]
      image := writeAll (servoTrace s.cfg s.initDone ch angle) s.image }

/-- 41_servo_write.md R106, R107 in every environment: what a SERVO emits is its full trace, low byte before high byte, cut after the
first event that is not served. The one delay after both bytes is the spec's decision D18 (log entry 11). -/
def Obligations.ServoEmitsLowBeforeHigh : Prop :=
  ∀ (s : State) (ch : Nat) (angle : Int), ch ≤ 15 →
    ∃ t, exec (.servo ch angle) s = .next t ∧
      t.trace = s.trace ++ emitted (
        (if s.initDone then [] else initTrace s.cfg) ++
        [.w (BitVec.ofNat 8 (0x08 + 4 * ch + 2)) (BitVec.ofInt 8 (offCount angle)),
         .w (BitVec.ofNat 8 (0x08 + 4 * ch + 3)) (BitVec.ofInt 8 (offCount angle >>> (8 : Nat)))] ++
        (if s.cfg.postWriteDelayEn then [.d s.cfg.delayMs] else [])) s.env

/-- 41_servo_write.md R109: a failed low byte, a failed high byte, a failed write of the lazy init sequence; and, whether or not the
SERVO runs the init sequence first, whichever of its writes is the first one answered failed. The register of the failed
write is unknown in the image (20_memory.md R50, R55), INIT_DONE stays 0 by 42_init.md R124 (the spec's decision D19, log entry 11),
and the fates are the model's own (log entry 8). -/
def Obligations.ServoTransportFailure : Prop :=
  (∀ (s : State) (ch : Nat) (angle : Int) (e : Env), ch ≤ 15 → s.initDone = true →
    s.env.takeAnswer = some (.failed, e) →
    exec (.servo ch angle) s = .next { s with
      env := e
      trace := s.trace ++ [.w (offLowReg ch) (lowByte (off16 angle))]
      fates := s.fates ++ [.answered .failed]
      responses := s.responses ++ [0x20000000#32 + BitVec.ofNat 32 ((0x08 + 4 * ch + 2) * 0x10000)]
      image := s.image.forget (0x08 + 4 * ch + 2) }) ∧
  (∀ (s : State) (ch : Nat) (angle : Int) (e1 e2 : Env), ch ≤ 15 → s.initDone = true →
    s.env.takeAnswer = some (.done, e1) → e1.takeAnswer = some (.failed, e2) →
    exec (.servo ch angle) s = .next { s with
      env := e2
      trace := s.trace ++ [.w (offLowReg ch) (lowByte (off16 angle)), .w (offHighReg ch) (highByte (off16 angle))]
      fates := s.fates ++ [.answered .done, .answered .failed]
      responses := s.responses ++ [0x20000000#32 + BitVec.ofNat 32 ((0x08 + 4 * ch + 3) * 0x10000)]
      image := (s.image.write (0x08 + 4 * ch + 2) (lowByte (off16 angle))).forget (0x08 + 4 * ch + 3) }) ∧
  (∀ (s : State) (ch : Nat) (angle : Int) (r : Byte), ch ≤ 15 → s.initDone = false →
    firstFailure (initTrace s.cfg) s.env = some r →
    ∃ t, exec (.servo ch angle) s = .next t ∧
      t.initDone = false ∧ t.busy = s.busy ∧
      t.trace = s.trace ++ emitted (initTrace s.cfg) s.env ∧
      t.responses = s.responses ++ [0x20000000#32 + BitVec.ofNat 32 (r.toNat * 0x10000)]) ∧
  (∀ (s : State) (ch : Nat) (angle : Int) (r : Byte), ch ≤ 15 →
    firstFailure (servoTrace s.cfg s.initDone ch angle) s.env = some r →
    ∃ t, exec (.servo ch angle) s = .next t ∧ t.busy = s.busy ∧
      t.trace = s.trace ++ emitted (servoTrace s.cfg s.initDone ch angle) s.env ∧
      t.responses = s.responses ++ [0x20000000#32 + BitVec.ofNat 32 (r.toNat * 0x10000)] ∧
      (t.initDone = true ↔ s.initDone = true ∨ (Env.serve (initTrace s.cfg) s.env).isSome = true) ∧
      t.image.read r.toNat = none ∧
      (r.toNat = 0x08 + 4 * ch + 3 → t.image.read (0x08 + 4 * ch + 2) = some (lowByte (off16 angle))))

/-- 70_reset_and_hazards.md R164, 20_memory.md R50, 10_state.md R26: a SERVO whose low byte was written and whose high byte is not
answered waits there. The pair holds the new low byte and the stale high byte (what the image said of it before; log entry 7), and
no response has been given. -/
def Obligations.ServoWaitsBetweenTheTwoWrites : Prop :=
  ∀ (s : State) (ch : Nat) (angle : Int) (e : Env), ch ≤ 15 → s.initDone = true →
    s.env.takeAnswer = some (.done, e) → e.takeAnswer = none →
    ∃ t, exec (.servo ch angle) s = .next t ∧
      t.busy = some ⟨.answer (offHighReg ch) (highByte (off16 angle)),
        if s.cfg.postWriteDelayEn then [.delay s.cfg.delayMs] else []⟩ ∧
      t.responses = s.responses ∧
      t.image.read (0x08 + 4 * ch + 2) = some (lowByte (off16 angle)) ∧
      t.image.read (0x08 + 4 * ch + 3) = s.image.read (0x08 + 4 * ch + 3)

/-- 20_memory.md R47, 41_servo_write.md R108, 70_reset_and_hazards.md R170: a SERVO with a valid channel, or an INIT, whose events are
neither all served nor stopped by a failed write has given no response: it is in progress at the last event it has emitted, which
the environment does not serve. In particular a SERVO whose post-write delay does not return has written both bytes and has not
responded. -/
def Obligations.CommandsWaitUntilServed : Prop :=
  (∀ (s : State) (ch : Nat) (angle : Int), ch ≤ 15 →
    Env.serve (servoTrace s.cfg s.initDone ch angle) s.env = none →
    firstFailure (servoTrace s.cfg s.initDone ch angle) s.env = none →
    ∃ t b before, exec (.servo ch angle) s = .next t ∧ t.busy = some b ∧ t.env.serves b.wait = false ∧
      t.responses = s.responses ∧
      t.trace = s.trace ++ emitted (servoTrace s.cfg s.initDone ch angle) s.env ∧
      t.trace = before ++ [b.wait.event s.cfg]) ∧
  (∀ s : State, s.initDone = false →
    Env.serve (initTrace s.cfg) s.env = none → firstFailure (initTrace s.cfg) s.env = none →
    ∃ t b before, exec .init s = .next t ∧ t.busy = some b ∧ t.env.serves b.wait = false ∧
      t.responses = s.responses ∧ t.initDone = false ∧
      t.trace = s.trace ++ emitted (initTrace s.cfg) s.env ∧
      t.trace = before ++ [b.wait.event s.cfg]) ∧
  (∀ (s : State) (ch : Nat) (angle : Int) (e : Env), ch ≤ 15 → s.cfg.postWriteDelayEn = true →
    Env.serve ((if s.initDone then [] else initTrace s.cfg) ++ pairTrace ch angle) s.env = some e → e.takeReturn = none →
    ∃ t, exec (.servo ch angle) s = .next t ∧ t.busy = some ⟨.delayReturn, []⟩ ∧ t.env = e ∧
      t.responses = s.responses ∧ t.initDone = true ∧
      t.trace = s.trace ++ servoTrace s.cfg s.initDone ch angle)

/-- 20_memory.md R48, R55: after a SERVO that was served, the image holds the count of the angle at the channel's OFF pair, low byte
at the lower address. -/
def Obligations.ServoLeavesCountInImage : Prop :=
  ∀ (s : State) (ch : Nat) (angle : Int) (e : Env), ch ≤ 15 →
    Env.serve (servoTrace s.cfg s.initDone ch angle) s.env = some e →
    ∃ t lo hi, exec (.servo ch angle) s = .next t ∧
      t.image.read (0x08 + 4 * ch + 2) = some lo ∧ t.image.read (0x08 + 4 * ch + 3) = some hi ∧
      hi ++ lo = BitVec.ofInt 16 (offCount angle)

/-- The frame of SERVO, in every environment and for every channel: configuration and inputs it does not consume stay, INIT_DONE is
never cleared, outputs only grow, and the image changes only at the channel's OFF pair and, with the lazy init, at the registers of
the init sequence (41_servo_write.md R106, 42_init.md R121). -/
def Obligations.ServoFrame : Prop :=
  ∀ (s t : State) (ch : Nat) (angle : Int), exec (.servo ch angle) s = .next t →
    t.cfg = s.cfg ∧ t.commands = s.commands ∧ t.resetLine = s.resetLine ∧ t.envLine = s.envLine ∧
    t.env.standing = s.env.standing ∧ t.env.answers <:+ s.env.answers ∧
    (s.initDone = true → t.initDone = true) ∧
    s.trace <+: t.trace ∧ s.fates <+: t.fates ∧ s.responses <+: t.responses ∧
    (15 < ch → t = { s with responses := t.responses }) ∧
    (∀ a : Nat,
      (ch ≤ 15 → a ≠ (offLowReg ch).toNat ∧ a ≠ (offHighReg ch).toNat) →
      (ch ≤ 15 → s.initDone = false → a ∉ [0x00, 0xFA, 0xFB, 0xFC, 0xFD, 0xFE]) →
      t.image.read a = s.image.read a)

/-! ### INIT -/

/-- 42_init.md R121, R125: an INIT whose events the environment serves ends with OK and INIT_DONE = 1; its trace is that of R126 where
INIT_DONE was 0 and nothing where it was 1 (the spec's decision D17). -/
def Obligations.InitCompletesWhenServed : Prop :=
  (∀ (s : State) (e : Env), s.initDone = false → Env.serve (initTrace s.cfg) s.env = some e →
    exec .init s = .next { s with
      initDone := true
      env := e
      trace := s.trace ++ initTrace s.cfg
      fates := s.fates ++ List.replicate (writeCount (initTrace s.cfg)) (.answered .done)
      responses := s.responses ++ [0x00000000#32]
      image := writeAll (initTrace s.cfg) s.image }) ∧
  (∀ s : State, s.initDone = true → exec .init s = .next { s with responses := s.responses ++ [0x00000000#32] })

/-- 42_init.md R123: in every environment and configuration, the writes of an INIT, in order, are a first part of MODE1 (reset, if
configured), MODE1 (sleep), PRE_SCALE, the ALL_LED registers, MODE1 (wake). -/
def Obligations.InitWriteOrder : Prop :=
  ∀ s t : State, s.initDone = false → exec .init s = .next t →
    ∃ es, t.trace = s.trace ++ es ∧
      writes es <+: (if s.cfg.softResetEn then [(0x00, 0x80)] else []) ++
        [(0x00, 0x11), (0xFE, s.cfg.prescale), (0xFA, 0x00), (0xFB, 0x00), (0xFC, 0x33), (0xFD, 0x01), (0x00, 0x01)]

/-- 42_init.md R124 (the spec's decision D19): a failed write ends the sequence, INIT_DONE stays 0, and INFO is its register. -/
def Obligations.InitTransportFailure : Prop :=
  ∀ (s : State) (r : Byte), s.initDone = false → firstFailure (initTrace s.cfg) s.env = some r →
    ∃ t, exec .init s = .next t ∧
      t.initDone = false ∧ t.busy = s.busy ∧
      t.trace = s.trace ++ emitted (initTrace s.cfg) s.env ∧
      t.responses = s.responses ++ [0x20000000#32 + BitVec.ofNat 32 (r.toNat * 0x10000)]

/-- The frame of INIT, in every environment (42_init.md R121, R125). -/
def Obligations.InitFrame : Prop :=
  ∀ s t : State, exec .init s = .next t →
    t.cfg = s.cfg ∧ t.commands = s.commands ∧ t.resetLine = s.resetLine ∧ t.envLine = s.envLine ∧
    t.env.standing = s.env.standing ∧ t.env.answers <:+ s.env.answers ∧
    (s.initDone = true → t = { s with responses := t.responses }) ∧
    s.trace <+: t.trace ∧ s.fates <+: t.fates ∧ s.responses <+: t.responses ∧
    (∀ a : Nat, a ∉ [0x00, 0xFA, 0xFB, 0xFC, 0xFD, 0xFE] → t.image.read a = s.image.read a)

/-- 10_state.md R20, 42_init.md R122, R124 (the spec's decision D19): INIT_DONE becomes 1 exactly if every write of the init
sequence was answered done and every delay of it returned, and then the whole init trace has been emitted first. -/
def Obligations.InitDoneExactlyAfterWholeSequence : Prop :=
  ∀ s t : State, s.initDone = false →
    (exec .init s = .next t ∨ ∃ (ch : Nat) (angle : Int), ch ≤ 15 ∧ exec (.servo ch angle) s = .next t) →
    (t.initDone = true ↔ (Env.serve (initTrace s.cfg) s.env).isSome = true) ∧
    (t.initDone = true → s.trace ++ initTrace s.cfg <+: t.trace)

/-- 42_init.md R126: the number of writes and delays of the init sequence in each configuration. -/
def Obligations.InitTraceCounts : Prop :=
  ∀ c : Config,
    writeCount (opsEvents (initSequence c)) = (if c.softResetEn then 8 else 7) ∧
    (opsEvents (initSequence c)).length - writeCount (opsEvents (initSequence c)) =
      1 + (if c.softResetEn then 1 else 0) + (if c.wakeSettleEn then 1 else 0)

/-! ### The register image -/

/-- 20_memory.md R55: what the image says of an address after it was set or made unknown. -/
def Obligations.ImageReadAfterUpdate : Prop :=
  (∀ (m : Memory) (a : Nat) (v : Byte) (b : Nat), (m.write a v).read b = if b = a then some v else m.read b) ∧
  (∀ (m : Memory) (a b : Nat), (m.forget a).read b = if b = a then none else m.read b)

/-- Two images in canonical form that say the same of every address are the same data (log entry 7). -/
def Obligations.CanonicalImageIsDeterminedByReads : Prop :=
  ∀ m m' : Memory, m.wf = true → m'.wf = true → (∀ a, m.read a = m'.read a) → m = m'

/-! ### Whole-machine statements -/

/-- The invariant of the machine is kept by every step: the image is canonical (the model's form, log entry 7) and is the fold of
20_memory.md R55 (with registers of abandoned writes unknown, log entry 7), each write has one fate but the one waited for (the
model's field, log entry 8), only registers of R44 are written and only DELAY_MS is asked for, responses are as 30_encoding.md R63
allows, and a command in progress is at a position of its command (10_state.md R26). -/
def Obligations.StepKeepsMachineInvariant : Prop :=
  ∀ s t : State, MachineInv s → step s = .next t → MachineInv t

/-- The invariant holds right after reset, in every configuration, and A2P is then idle with nothing emitted and every register
unknown (70_reset_and_hazards.md R160, 20_memory.md R55). -/
def Obligations.MachineInvariantAtReset : Prop :=
  (∀ c : Config, MachineInv (State.resetWith c) ∧ (State.resetWith c).busy = none ∧ (State.resetWith c).trace = [] ∧
    ∀ a, (State.resetWith c).image.read a = none) ∧
  MachineInv State.reset

/-- 20_memory.md R44: over every run from reset, in every configuration and environment, the registers written are exactly the 38
the rule lists. -/
def Obligations.WrittenRegistersAreExactlyR44 : Prop :=
  writableRegs.length = 38 ∧ writableRegs.Nodup ∧
  ∀ r : Byte,
    (∃ (c : Config) (commands : List Word) (resetLine : List ResetInput) (envLine : List Env) (n : Nat) (t : State) (v : Byte),
      Host.Core.run Sys2Proof.core n
        { State.resetWith c with commands := commands, resetLine := resetLine, envLine := envLine } = .next t ∧
      Event.w r v ∈ t.trace) ↔
    r.toNat ∈ writableRegs

/-- 10_state.md R26: a command that waited for the transport, or for the delay primitive, and is then served ends exactly as if it
had never waited. That it goes on in one step, and that what comes later is in `envLine`, is the model's (log entries 3 and 4). -/
def Obligations.PausedCommandEndsAsUninterrupted : Prop :=
  (∀ (i : Instr) (s t : State) (reg val : Byte) (rest : List Op) (a : Answer) (late : List Answer) (standing : Option Answer),
    s.busy = none → s.resetLine = [] → exec i s = .next t → t.busy = some ⟨.answer reg val, rest⟩ →
    s.envLine = [⟨a :: late, standing, t.env.delays⟩] →
    step t = exec i { s with env := ⟨s.env.answers ++ a :: late, standing, s.env.delays⟩, envLine := [] }) ∧
  (∀ (i : Instr) (s t : State) (rest : List Op),
    s.busy = none → s.resetLine = [] → exec i s = .next t → t.busy = some ⟨.delayReturn, rest⟩ →
    s.envLine = [{ t.env with delays := .always }] →
    step t = exec i { s with env := { s.env with delays := .always }, envLine := [] })

/-- 10_state.md R20, 49_other_families.md R132: nothing emitted, answered or written before has any influence: two states that differ
only in their outputs so far emit the same events, give the same responses and agree on everything else afterwards. -/
def Obligations.HistoryHasNoInfluence : Prop :=
  ∀ (s t : State) (trace : List Event) (fates : List Fate) (responses : List Word) (image : Memory), step s = .next t →
    ∃ t' es rs,
      step { s with trace := trace, fates := fates, responses := responses, image := image } = .next t' ∧
      t.trace = s.trace ++ es ∧ t'.trace = trace ++ es ∧
      t.responses = s.responses ++ rs ∧ t'.responses = responses ++ rs ∧
      t'.cfg = t.cfg ∧ t'.initDone = t.initDone ∧ t'.busy = t.busy ∧ t'.commands = t.commands ∧
      t'.resetLine = t.resetLine ∧ t'.env = t.env ∧ t'.envLine = t.envLine

/-- 70_reset_and_hazards.md R172: under ALL_DONE, the observable result of a run over any list of command words, legal or not, is the
concatenation of the commands' traces, the list of their responses, and the final INIT_DONE. -/
def Obligations.RunObservables : Prop :=
  ∀ (cmds : List Word) (s : State),
    s.busy = none → s.resetLine = [] → s.commands = cmds → (∀ e ∈ s.env :: s.envLine, e.allDone) →
    ∃ t : State, Host.Core.run Sys2Proof.core cmds.length s = .next t ∧
      t.busy = none ∧ t.commands = [] ∧
      t.trace = s.trace ++ runTrace s.cfg s.initDone cmds ∧
      t.responses = s.responses ++ cmds.map wordResponse ∧
      t.initDone = cmds.foldl wordInitDone s.initDone

/-- 41_servo_write.md R110: over any run of SERVO commands with valid channels and no transport failure, only the first emits the
init trace, and each emits exactly two writes of its own. As many steps as words is the model's grain (log entry 4), and the one
delay per SERVO is the spec's decision D18 (log entry 11). -/
def Obligations.OnlyFirstServoInitialises : Prop :=
  ∀ (servos : List (Nat × Int)) (s : State),
    servos ≠ [] → (∀ p ∈ servos, p.1 ≤ 15 ∧ angleFits p.2 = true) →
    s.busy = none → s.resetLine = [] → s.commands = servos.map (fun p => encode (.servo p.1 p.2)) →
    (∀ e ∈ s.env :: s.envLine, e.allDone) →
    ∃ t : State, Host.Core.run Sys2Proof.core servos.length s = .next t ∧
      t.trace = s.trace ++ (if s.initDone then [] else initTrace s.cfg) ++
        servos.flatMap (fun p => servoTrace s.cfg true p.1 p.2) ∧
      (∀ p ∈ servos, writeCount (servoTrace s.cfg true p.1 p.2) = 2) ∧
      t.responses = s.responses ++ servos.map (fun _ => 0x00000000#32) ∧
      t.initDone = true
end

