-- ==== Sys2Proof/Laws/Memory.lean ====
section
/-! SUPPORT. Laws/Memory.lean: the byte memory. What each operation reads as, and that each keeps the canonical form. -/

namespace Sys2Proof.Machine

@[simp] theorem Memory.read_nil (a : Nat) : Memory.read [] a = none := rfl

@[simp] theorem Memory.read_cons (k : Nat) (b : Byte) (m : Memory) (a : Nat) :
    Memory.read ((k, b) :: m) a = if k = a then some b else Memory.read m a := rfl

/-- Read after write. -/
@[simp] theorem Memory.read_write (m : Memory) (a : Nat) (v : Byte) (b : Nat) :
    (m.write a v).read b = if b = a then some v else m.read b := by
  induction m with
  | nil => simp [Memory.write, eq_comm]
  | cons c m ih =>
    obtain ⟨k, w⟩ := c
    unfold Memory.write
    split_ifs with h1 h2 <;> simp only [Memory.read_cons, ih] <;> grind

/-- Read after forget. -/
@[simp] theorem Memory.read_forget (m : Memory) (a b : Nat) :
    (m.forget a).read b = if b = a then none else m.read b := by
  induction m with
  | nil => simp [Memory.forget]
  | cons c m ih =>
    obtain ⟨k, w⟩ := c
    unfold Memory.forget
    split_ifs with h1 h2 <;> simp only [Memory.read_cons, ih] <;> grind

theorem Memory.wfFrom_cons (lo a : Nat) (v : Byte) (m : Memory) :
    Memory.wfFrom lo ((a, v) :: m) = true ↔ lo ≤ a ∧ a < 256 ∧ Memory.wfFrom (a + 1) m = true := by
  simp [Memory.wfFrom, and_assoc]

/-- A memory that starts at `lo` starts at every lower bound. -/
theorem Memory.wfFrom_mono {lo lo' : Nat} {m : Memory} (h : Memory.wfFrom lo m = true) (hle : lo' ≤ lo) :
    Memory.wfFrom lo' m = true := by
  cases m with
  | nil => rfl
  | cons c m =>
    rw [Memory.wfFrom_cons] at h ⊢
    exact ⟨by omega, h.2⟩

theorem Memory.wfFrom_write {lo a : Nat} {m : Memory} (v : Byte) (h : Memory.wfFrom lo m = true) (hlo : lo ≤ a) (ha : a < 256) :
    Memory.wfFrom lo (m.write a v) = true := by
  induction m generalizing lo with
  | nil => simp [Memory.write, Memory.wfFrom, hlo, ha]
  | cons c m ih =>
    obtain ⟨k, w⟩ := c
    rw [Memory.wfFrom_cons] at h
    unfold Memory.write
    split_ifs with h1 h2
    · simp only [Memory.wfFrom_cons]
      exact ⟨hlo, ha, by omega, h.2⟩
    · subst h2
      simp only [Memory.wfFrom_cons]
      exact h
    · simp only [Memory.wfFrom_cons]
      exact ⟨h.1, h.2.1, ih h.2.2 (by omega)⟩

theorem Memory.wfFrom_forget {lo : Nat} {m : Memory} (a : Nat) (h : Memory.wfFrom lo m = true) :
    Memory.wfFrom lo (m.forget a) = true := by
  induction m generalizing lo with
  | nil => rfl
  | cons c m ih =>
    obtain ⟨k, w⟩ := c
    rw [Memory.wfFrom_cons] at h
    unfold Memory.forget
    split_ifs with h1
    · exact ih (Memory.wfFrom_mono h.2.2 (by omega))
    · simp only [Memory.wfFrom_cons]
      exact ⟨h.1, h.2.1, ih h.2.2⟩

/-- A write of a register address keeps the canonical form. -/
theorem Memory.wf_write {m : Memory} (h : m.wf = true) (r v : Byte) : Memory.wf (m.write r.toNat v) = true :=
  Memory.wfFrom_write v h (Nat.zero_le _) r.isLt

/-- Forgetting an address keeps the canonical form. -/
theorem Memory.wf_forget {m : Memory} (h : m.wf = true) (a : Nat) : Memory.wf (m.forget a) = true := Memory.wfFrom_forget a h

/-- Below its first address a canonical memory is unknown. -/
theorem Memory.read_of_wfFrom {lo : Nat} {m : Memory} (h : Memory.wfFrom lo m = true) {a : Nat} (ha : a < lo) : m.read a = none := by
  induction m generalizing lo with
  | nil => rfl
  | cons c m ih =>
    obtain ⟨k, w⟩ := c
    rw [Memory.wfFrom_cons] at h
    rw [Memory.read_cons, if_neg (by omega)]
    exact ih h.2.2 (by omega)

end Sys2Proof.Machine
end

