-- ==== Sys2Proof/Laws/State.lean ====
section
/-! SUPPORT. Laws/State.lean: one lemma per field per update of State, so that no proof unfolds a record update. -/

namespace Sys2Proof.Machine

variable (s : State)

/-! ### respond -/

@[simp] theorem State.respond_cfg (st : Status) (info : Byte) (o : Half) : (s.respond st info o).cfg = s.cfg := rfl
@[simp] theorem State.respond_initDone (st : Status) (info : Byte) (o : Half) : (s.respond st info o).initDone = s.initDone := rfl
@[simp] theorem State.respond_busy (st : Status) (info : Byte) (o : Half) : (s.respond st info o).busy = s.busy := rfl
@[simp] theorem State.respond_commands (st : Status) (info : Byte) (o : Half) : (s.respond st info o).commands = s.commands := rfl
@[simp] theorem State.respond_resetLine (st : Status) (info : Byte) (o : Half) : (s.respond st info o).resetLine = s.resetLine := rfl
@[simp] theorem State.respond_env (st : Status) (info : Byte) (o : Half) : (s.respond st info o).env = s.env := rfl
@[simp] theorem State.respond_envLine (st : Status) (info : Byte) (o : Half) : (s.respond st info o).envLine = s.envLine := rfl
@[simp] theorem State.respond_trace (st : Status) (info : Byte) (o : Half) : (s.respond st info o).trace = s.trace := rfl
@[simp] theorem State.respond_fates (st : Status) (info : Byte) (o : Half) : (s.respond st info o).fates = s.fates := rfl
@[simp] theorem State.respond_responses (st : Status) (info : Byte) (o : Half) : (s.respond st info o).responses = s.responses ++ [responseWord st info o] := rfl
@[simp] theorem State.respond_image (st : Status) (info : Byte) (o : Half) : (s.respond st info o).image = s.image := rfl

/-! ### raise -/

@[simp] theorem State.raise_cfg (e : Exception) : (s.raise e).cfg = s.cfg := rfl
@[simp] theorem State.raise_initDone (e : Exception) : (s.raise e).initDone = s.initDone := rfl
@[simp] theorem State.raise_busy (e : Exception) : (s.raise e).busy = s.busy := rfl
@[simp] theorem State.raise_commands (e : Exception) : (s.raise e).commands = s.commands := rfl
@[simp] theorem State.raise_resetLine (e : Exception) : (s.raise e).resetLine = s.resetLine := rfl
@[simp] theorem State.raise_env (e : Exception) : (s.raise e).env = s.env := rfl
@[simp] theorem State.raise_envLine (e : Exception) : (s.raise e).envLine = s.envLine := rfl
@[simp] theorem State.raise_trace (e : Exception) : (s.raise e).trace = s.trace := rfl
@[simp] theorem State.raise_fates (e : Exception) : (s.raise e).fates = s.fates := rfl
@[simp] theorem State.raise_responses (e : Exception) : (s.raise e).responses = s.responses ++ [responseWord e.status e.info 0] := rfl
@[simp] theorem State.raise_image (e : Exception) : (s.raise e).image = s.image := rfl

/-! ### emitWrite -/

@[simp] theorem State.emitWrite_cfg (r v : Byte) : (s.emitWrite r v).cfg = s.cfg := rfl
@[simp] theorem State.emitWrite_initDone (r v : Byte) : (s.emitWrite r v).initDone = s.initDone := rfl
@[simp] theorem State.emitWrite_busy (r v : Byte) : (s.emitWrite r v).busy = s.busy := rfl
@[simp] theorem State.emitWrite_commands (r v : Byte) : (s.emitWrite r v).commands = s.commands := rfl
@[simp] theorem State.emitWrite_resetLine (r v : Byte) : (s.emitWrite r v).resetLine = s.resetLine := rfl
@[simp] theorem State.emitWrite_env (r v : Byte) : (s.emitWrite r v).env = s.env := rfl
@[simp] theorem State.emitWrite_envLine (r v : Byte) : (s.emitWrite r v).envLine = s.envLine := rfl
@[simp] theorem State.emitWrite_trace (r v : Byte) : (s.emitWrite r v).trace = s.trace ++ [.w r v] := rfl
@[simp] theorem State.emitWrite_fates (r v : Byte) : (s.emitWrite r v).fates = s.fates := rfl
@[simp] theorem State.emitWrite_responses (r v : Byte) : (s.emitWrite r v).responses = s.responses := rfl
@[simp] theorem State.emitWrite_image (r v : Byte) : (s.emitWrite r v).image = s.image := rfl

/-! ### emitDelay -/

@[simp] theorem State.emitDelay_cfg (ms : Word) : (s.emitDelay ms).cfg = s.cfg := rfl
@[simp] theorem State.emitDelay_initDone (ms : Word) : (s.emitDelay ms).initDone = s.initDone := rfl
@[simp] theorem State.emitDelay_busy (ms : Word) : (s.emitDelay ms).busy = s.busy := rfl
@[simp] theorem State.emitDelay_commands (ms : Word) : (s.emitDelay ms).commands = s.commands := rfl
@[simp] theorem State.emitDelay_resetLine (ms : Word) : (s.emitDelay ms).resetLine = s.resetLine := rfl
@[simp] theorem State.emitDelay_env (ms : Word) : (s.emitDelay ms).env = s.env := rfl
@[simp] theorem State.emitDelay_envLine (ms : Word) : (s.emitDelay ms).envLine = s.envLine := rfl
@[simp] theorem State.emitDelay_trace (ms : Word) : (s.emitDelay ms).trace = s.trace ++ [.d ms] := rfl
@[simp] theorem State.emitDelay_fates (ms : Word) : (s.emitDelay ms).fates = s.fates := rfl
@[simp] theorem State.emitDelay_responses (ms : Word) : (s.emitDelay ms).responses = s.responses := rfl
@[simp] theorem State.emitDelay_image (ms : Word) : (s.emitDelay ms).image = s.image := rfl

/-! ### writeDone -/

@[simp] theorem State.writeDone_cfg (r v : Byte) : (s.writeDone r v).cfg = s.cfg := rfl
@[simp] theorem State.writeDone_initDone (r v : Byte) : (s.writeDone r v).initDone = s.initDone := rfl
@[simp] theorem State.writeDone_busy (r v : Byte) : (s.writeDone r v).busy = s.busy := rfl
@[simp] theorem State.writeDone_commands (r v : Byte) : (s.writeDone r v).commands = s.commands := rfl
@[simp] theorem State.writeDone_resetLine (r v : Byte) : (s.writeDone r v).resetLine = s.resetLine := rfl
@[simp] theorem State.writeDone_env (r v : Byte) : (s.writeDone r v).env = s.env := rfl
@[simp] theorem State.writeDone_envLine (r v : Byte) : (s.writeDone r v).envLine = s.envLine := rfl
@[simp] theorem State.writeDone_trace (r v : Byte) : (s.writeDone r v).trace = s.trace := rfl
@[simp] theorem State.writeDone_fates (r v : Byte) : (s.writeDone r v).fates = s.fates ++ [.answered .done] := rfl
@[simp] theorem State.writeDone_responses (r v : Byte) : (s.writeDone r v).responses = s.responses := rfl
@[simp] theorem State.writeDone_image (r v : Byte) : (s.writeDone r v).image = s.image.write r.toNat v := rfl

/-! ### writeFailed -/

@[simp] theorem State.writeFailed_cfg (r : Byte) : (s.writeFailed r).cfg = s.cfg := rfl
@[simp] theorem State.writeFailed_initDone (r : Byte) : (s.writeFailed r).initDone = s.initDone := rfl
@[simp] theorem State.writeFailed_busy (r : Byte) : (s.writeFailed r).busy = s.busy := rfl
@[simp] theorem State.writeFailed_commands (r : Byte) : (s.writeFailed r).commands = s.commands := rfl
@[simp] theorem State.writeFailed_resetLine (r : Byte) : (s.writeFailed r).resetLine = s.resetLine := rfl
@[simp] theorem State.writeFailed_env (r : Byte) : (s.writeFailed r).env = s.env := rfl
@[simp] theorem State.writeFailed_envLine (r : Byte) : (s.writeFailed r).envLine = s.envLine := rfl
@[simp] theorem State.writeFailed_trace (r : Byte) : (s.writeFailed r).trace = s.trace := rfl
@[simp] theorem State.writeFailed_fates (r : Byte) : (s.writeFailed r).fates = s.fates ++ [.answered .failed] := rfl
@[simp] theorem State.writeFailed_responses (r : Byte) : (s.writeFailed r).responses = s.responses := rfl
@[simp] theorem State.writeFailed_image (r : Byte) : (s.writeFailed r).image = s.image.forget r.toNat := rfl

/-! ### setInitDone -/

@[simp] theorem State.setInitDone_cfg : (s.setInitDone).cfg = s.cfg := rfl
@[simp] theorem State.setInitDone_initDone : (s.setInitDone).initDone = true := rfl
@[simp] theorem State.setInitDone_busy : (s.setInitDone).busy = s.busy := rfl
@[simp] theorem State.setInitDone_commands : (s.setInitDone).commands = s.commands := rfl
@[simp] theorem State.setInitDone_resetLine : (s.setInitDone).resetLine = s.resetLine := rfl
@[simp] theorem State.setInitDone_env : (s.setInitDone).env = s.env := rfl
@[simp] theorem State.setInitDone_envLine : (s.setInitDone).envLine = s.envLine := rfl
@[simp] theorem State.setInitDone_trace : (s.setInitDone).trace = s.trace := rfl
@[simp] theorem State.setInitDone_fates : (s.setInitDone).fates = s.fates := rfl
@[simp] theorem State.setInitDone_responses : (s.setInitDone).responses = s.responses := rfl
@[simp] theorem State.setInitDone_image : (s.setInitDone).image = s.image := rfl

/-! ### abandon -/

@[simp] theorem State.abandon_cfg : (s.abandon).cfg = s.cfg := rfl
@[simp] theorem State.abandon_initDone : (s.abandon).initDone = s.initDone := rfl
@[simp] theorem State.abandon_busy : (s.abandon).busy = none := rfl
@[simp] theorem State.abandon_commands : (s.abandon).commands = s.commands := rfl
@[simp] theorem State.abandon_resetLine : (s.abandon).resetLine = s.resetLine := rfl
@[simp] theorem State.abandon_env : (s.abandon).env = s.env := rfl
@[simp] theorem State.abandon_envLine : (s.abandon).envLine = s.envLine := rfl
@[simp] theorem State.abandon_trace : (s.abandon).trace = s.trace := rfl
@[simp] theorem State.abandon_fates : (s.abandon).fates = s.fates ++ abandonedFates s.busy := rfl
@[simp] theorem State.abandon_responses : (s.abandon).responses = s.responses := rfl
@[simp] theorem State.abandon_image : (s.abandon).image = abandonedImage s.busy s.image := rfl

/-! ### holdReset -/

@[simp] theorem State.holdReset_cfg : (s.holdReset).cfg = s.cfg := rfl
@[simp] theorem State.holdReset_initDone : (s.holdReset).initDone = false := rfl
@[simp] theorem State.holdReset_busy : (s.holdReset).busy = none := rfl
@[simp] theorem State.holdReset_commands : (s.holdReset).commands = s.commands := rfl
@[simp] theorem State.holdReset_resetLine : (s.holdReset).resetLine = s.resetLine := rfl
@[simp] theorem State.holdReset_env : (s.holdReset).env = s.env := rfl
@[simp] theorem State.holdReset_envLine : (s.holdReset).envLine = s.envLine := rfl
@[simp] theorem State.holdReset_trace : (s.holdReset).trace = s.trace := rfl
@[simp] theorem State.holdReset_fates : (s.holdReset).fates = s.fates ++ abandonedFates s.busy := rfl
@[simp] theorem State.holdReset_responses : (s.holdReset).responses = s.responses := rfl
@[simp] theorem State.holdReset_image : (s.holdReset).image = abandonedImage s.busy s.image := rfl

/-! ### tick -/

@[simp] theorem State.tick_cfg : (s.tick).cfg = s.cfg := rfl
@[simp] theorem State.tick_initDone : (s.tick).initDone = s.initDone := rfl
@[simp] theorem State.tick_busy : (s.tick).busy = s.busy := rfl
@[simp] theorem State.tick_commands : (s.tick).commands = s.commands := rfl
@[simp] theorem State.tick_resetLine : (s.tick).resetLine = s.resetLine.tail := rfl
/-- Not a simp lemma: what a step can do is said in terms of `s.tick.env`. -/
theorem State.tick_env : (s.tick).env = s.envLine.headD s.env := rfl
@[simp] theorem State.tick_envLine : (s.tick).envLine = s.envLine.tail := rfl
@[simp] theorem State.tick_trace : (s.tick).trace = s.trace := rfl
@[simp] theorem State.tick_fates : (s.tick).fates = s.fates := rfl
@[simp] theorem State.tick_responses : (s.tick).responses = s.responses := rfl
@[simp] theorem State.tick_image : (s.tick).image = s.image := rfl

/-! ### present -/

@[simp] theorem State.present_cfg (cmd : Word) : (s.present cmd).cfg = s.cfg := rfl
@[simp] theorem State.present_initDone (cmd : Word) : (s.present cmd).initDone = s.initDone := rfl
@[simp] theorem State.present_busy (cmd : Word) : (s.present cmd).busy = none := rfl
@[simp] theorem State.present_commands (cmd : Word) : (s.present cmd).commands = cmd :: s.commands := rfl
@[simp] theorem State.present_resetLine (cmd : Word) : (s.present cmd).resetLine = releaseFirst s.resetLine := rfl
@[simp] theorem State.present_env (cmd : Word) : (s.present cmd).env = s.env := rfl
@[simp] theorem State.present_envLine (cmd : Word) : (s.present cmd).envLine = s.envLine := rfl
@[simp] theorem State.present_trace (cmd : Word) : (s.present cmd).trace = s.trace := rfl
@[simp] theorem State.present_fates (cmd : Word) : (s.present cmd).fates = s.fates ++ abandonedFates s.busy := rfl
@[simp] theorem State.present_responses (cmd : Word) : (s.present cmd).responses = s.responses := rfl
@[simp] theorem State.present_image (cmd : Word) : (s.present cmd).image = abandonedImage s.busy s.image := rfl

/-! ### withEnv -/

@[simp] theorem State.withEnv_cfg (e : Env) : (s.withEnv e).cfg = s.cfg := rfl
@[simp] theorem State.withEnv_initDone (e : Env) : (s.withEnv e).initDone = s.initDone := rfl
@[simp] theorem State.withEnv_busy (e : Env) : (s.withEnv e).busy = s.busy := rfl
@[simp] theorem State.withEnv_commands (e : Env) : (s.withEnv e).commands = s.commands := rfl
@[simp] theorem State.withEnv_resetLine (e : Env) : (s.withEnv e).resetLine = s.resetLine := rfl
@[simp] theorem State.withEnv_env (e : Env) : (s.withEnv e).env = e := rfl
@[simp] theorem State.withEnv_envLine (e : Env) : (s.withEnv e).envLine = s.envLine := rfl
@[simp] theorem State.withEnv_trace (e : Env) : (s.withEnv e).trace = s.trace := rfl
@[simp] theorem State.withEnv_fates (e : Env) : (s.withEnv e).fates = s.fates := rfl
@[simp] theorem State.withEnv_responses (e : Env) : (s.withEnv e).responses = s.responses := rfl
@[simp] theorem State.withEnv_image (e : Env) : (s.withEnv e).image = s.image := rfl

/-! ### waitAt -/

@[simp] theorem State.waitAt_cfg (b : Busy) : (s.waitAt b).cfg = s.cfg := rfl
@[simp] theorem State.waitAt_initDone (b : Busy) : (s.waitAt b).initDone = s.initDone := rfl
@[simp] theorem State.waitAt_busy (b : Busy) : (s.waitAt b).busy = some b := rfl
@[simp] theorem State.waitAt_commands (b : Busy) : (s.waitAt b).commands = s.commands := rfl
@[simp] theorem State.waitAt_resetLine (b : Busy) : (s.waitAt b).resetLine = s.resetLine := rfl
@[simp] theorem State.waitAt_env (b : Busy) : (s.waitAt b).env = s.env := rfl
@[simp] theorem State.waitAt_envLine (b : Busy) : (s.waitAt b).envLine = s.envLine := rfl
@[simp] theorem State.waitAt_trace (b : Busy) : (s.waitAt b).trace = s.trace := rfl
@[simp] theorem State.waitAt_fates (b : Busy) : (s.waitAt b).fates = s.fates := rfl
@[simp] theorem State.waitAt_responses (b : Busy) : (s.waitAt b).responses = s.responses := rfl
@[simp] theorem State.waitAt_image (b : Busy) : (s.waitAt b).image = s.image := rfl

/-! ### idle -/

@[simp] theorem State.idle_cfg : (s.idle).cfg = s.cfg := rfl
@[simp] theorem State.idle_initDone : (s.idle).initDone = s.initDone := rfl
@[simp] theorem State.idle_busy : (s.idle).busy = none := rfl
@[simp] theorem State.idle_commands : (s.idle).commands = s.commands := rfl
@[simp] theorem State.idle_resetLine : (s.idle).resetLine = s.resetLine := rfl
@[simp] theorem State.idle_env : (s.idle).env = s.env := rfl
@[simp] theorem State.idle_envLine : (s.idle).envLine = s.envLine := rfl
@[simp] theorem State.idle_trace : (s.idle).trace = s.trace := rfl
@[simp] theorem State.idle_fates : (s.idle).fates = s.fates := rfl
@[simp] theorem State.idle_responses : (s.idle).responses = s.responses := rfl
@[simp] theorem State.idle_image : (s.idle).image = s.image := rfl

/-! ### takeCommand -/

@[simp] theorem State.takeCommand_cfg : (s.takeCommand).cfg = s.cfg := rfl
@[simp] theorem State.takeCommand_initDone : (s.takeCommand).initDone = s.initDone := rfl
@[simp] theorem State.takeCommand_busy : (s.takeCommand).busy = s.busy := rfl
@[simp] theorem State.takeCommand_commands : (s.takeCommand).commands = s.commands.tail := rfl
@[simp] theorem State.takeCommand_resetLine : (s.takeCommand).resetLine = s.resetLine := rfl
@[simp] theorem State.takeCommand_env : (s.takeCommand).env = s.env := rfl
@[simp] theorem State.takeCommand_envLine : (s.takeCommand).envLine = s.envLine := rfl
@[simp] theorem State.takeCommand_trace : (s.takeCommand).trace = s.trace := rfl
@[simp] theorem State.takeCommand_fates : (s.takeCommand).fates = s.fates := rfl
@[simp] theorem State.takeCommand_responses : (s.takeCommand).responses = s.responses := rfl
@[simp] theorem State.takeCommand_image : (s.takeCommand).image = s.image := rfl

/-! ### reset -/

@[simp] theorem State.resetWith_cfg (c : Config) : (State.resetWith c).cfg = c := rfl
@[simp] theorem State.resetWith_initDone (c : Config) : (State.resetWith c).initDone = false := rfl
@[simp] theorem State.resetWith_busy (c : Config) : (State.resetWith c).busy = none := rfl
@[simp] theorem State.resetWith_commands (c : Config) : (State.resetWith c).commands = [] := rfl
@[simp] theorem State.resetWith_resetLine (c : Config) : (State.resetWith c).resetLine = [] := rfl
@[simp] theorem State.resetWith_env (c : Config) : (State.resetWith c).env = Env.ideal := rfl
@[simp] theorem State.resetWith_envLine (c : Config) : (State.resetWith c).envLine = [] := rfl
@[simp] theorem State.resetWith_trace (c : Config) : (State.resetWith c).trace = [] := rfl
@[simp] theorem State.resetWith_fates (c : Config) : (State.resetWith c).fates = [] := rfl
@[simp] theorem State.resetWith_responses (c : Config) : (State.resetWith c).responses = [] := rfl
@[simp] theorem State.resetWith_image (c : Config) : (State.resetWith c).image = [] := rfl

end Sys2Proof.Machine
end

