-- ==== Sys2Proof/Laws/Perform.lean ====
section
/-! SUPPORT. Laws/Perform.lean: everything that performing the steps of a command can do, said once (`perform_cases`), and how it
relates to the traces and environments that claims speak of. -/

namespace Sys2Proof.Machine

/-! ### Events, and the environment that serves them -/

@[simp] theorem opsEvents_append (a b : List Op) : opsEvents (a ++ b) = opsEvents a ++ opsEvents b := by
  induction a with
  | nil => rfl
  | cons op a ih => simp [opsEvents, ih]

@[simp] theorem writeCount_append (a b : List Event) : writeCount (a ++ b) = writeCount a + writeCount b := by
  induction a with
  | nil => simp [writeCount]
  | cons e a ih => cases e <;> (simp [writeCount, ih]; try omega)

theorem writeAll_append (a b : List Event) (m : Memory) : writeAll (a ++ b) m = writeAll b (writeAll a m) := by
  induction a generalizing m with
  | nil => rfl
  | cons e a ih => cases e <;> exact ih _

/-- Serving two lists of events is serving the first and then the second. -/
theorem Env.serve_append (a b : List Event) (e : Env) : Env.serve (a ++ b) e = (Env.serve a e).bind (Env.serve b) := by
  induction a generalizing e with
  | nil => rfl
  | cons ev a ih =>
    cases ev with
    | w r v =>
      simp only [List.cons_append, Env.serve]
      rcases e.takeAnswer with _ | ⟨_ | _, e'⟩ <;> simp [ih]
    | d ms =>
      simp only [List.cons_append, Env.serve]
      rcases e.takeReturn with _ | e' <;> simp [ih]

/-- Served events are all emitted. -/
theorem emitted_append {a : List Event} {e e' : Env} (h : Env.serve a e = some e') (b : List Event) :
    emitted (a ++ b) e = a ++ emitted b e' := by
  induction a generalizing e with
  | nil => simp_all [Env.serve]
  | cons ev a ih =>
    cases ev with
    | w r v =>
      simp only [Env.serve] at h
      simp only [List.cons_append, emitted]
      rcases h' : e.takeAnswer with _ | ⟨_ | _, e1⟩ <;> simp_all
    | d ms =>
      simp only [Env.serve] at h
      simp only [List.cons_append, emitted]
      rcases h' : e.takeReturn with _ | e1 <;> simp_all

/-- Served events hold no failure. -/
theorem firstFailure_append {a : List Event} {e e' : Env} (h : Env.serve a e = some e') (b : List Event) :
    firstFailure (a ++ b) e = firstFailure b e' := by
  induction a generalizing e with
  | nil => simp_all [Env.serve]
  | cons ev a ih =>
    cases ev with
    | w r v =>
      simp only [Env.serve] at h
      simp only [List.cons_append, firstFailure]
      rcases h' : e.takeAnswer with _ | ⟨_ | _, e1⟩ <;> simp_all
    | d ms =>
      simp only [Env.serve] at h
      simp only [List.cons_append, firstFailure]
      rcases h' : e.takeReturn with _ | e1 <;> simp_all

/-- A failure in the first part is the failure of the whole, and nothing after it is emitted. -/
theorem emitted_firstFailure {a : List Event} {e : Env} {r : Byte} (h : firstFailure a e = some r) (b : List Event) :
    firstFailure (a ++ b) e = some r ∧ emitted (a ++ b) e = emitted a e := by
  induction a generalizing e with
  | nil => simp [firstFailure] at h
  | cons ev a ih =>
    cases ev with
    | w r v =>
      simp only [firstFailure] at h
      simp only [List.cons_append, firstFailure, emitted]
      rcases h' : e.takeAnswer with _ | ⟨_ | _, e1⟩ <;> simp_all
    | d ms =>
      simp only [firstFailure] at h
      simp only [List.cons_append, firstFailure, emitted]
      rcases h' : e.takeReturn with _ | e1 <;> simp_all

/-! ### What performing steps can do -/

/-- The state after steps every one of which the environment served, with `e` left of the environment. -/
def State.ran (s : State) (ops : List Op) (e : Env) : State :=
  { s with
    env := e
    initDone := s.initDone || decide (Op.setInitDone ∈ ops)
    trace := s.trace ++ opsEvents ops
    fates := s.fates ++ List.replicate (writeCount (opsEvents ops)) (.answered .done)
    image := writeAll (opsEvents ops) s.image }

@[simp] theorem State.ran_nil (s : State) : s.ran [] s.env = s := by
  simp [State.ran, opsEvents, writeCount, writeAll]

theorem State.ran_ran (s : State) (a b : List Op) (e e' : Env) : (s.ran a e).ran b e' = s.ran (a ++ b) e' := by
  simp [State.ran, writeAll_append, List.replicate_append_replicate, Bool.or_assoc, Bool.decide_or]

section
variable (s : State) (ops : List Op) (e : Env)
@[simp] theorem State.ran_cfg : (s.ran ops e).cfg = s.cfg := rfl
@[simp] theorem State.ran_initDone : (s.ran ops e).initDone = (s.initDone || decide (Op.setInitDone ∈ ops)) := rfl
@[simp] theorem State.ran_busy : (s.ran ops e).busy = s.busy := rfl
@[simp] theorem State.ran_commands : (s.ran ops e).commands = s.commands := rfl
@[simp] theorem State.ran_resetLine : (s.ran ops e).resetLine = s.resetLine := rfl
@[simp] theorem State.ran_env : (s.ran ops e).env = e := rfl
@[simp] theorem State.ran_envLine : (s.ran ops e).envLine = s.envLine := rfl
@[simp] theorem State.ran_trace : (s.ran ops e).trace = s.trace ++ opsEvents ops := rfl
@[simp] theorem State.ran_fates :
    (s.ran ops e).fates = s.fates ++ List.replicate (writeCount (opsEvents ops)) (.answered .done) := rfl
@[simp] theorem State.ran_responses : (s.ran ops e).responses = s.responses := rfl
@[simp] theorem State.ran_image : (s.ran ops e).image = writeAll (opsEvents ops) s.image := rfl
end

/-! ### One step of a command, in any span -/

@[simp] theorem Span.next_whole : Span.whole.next = some .whole := rfl
@[simp] theorem Span.next_moves_zero : (Span.moves 0).next = none := rfl
@[simp] theorem Span.next_moves_succ (n : Nat) : (Span.moves (n + 1)).next = some (.moves n) := rfl

section
variable (st : Status) (info : Byte) (o : Half) (x : Exception) (n : Nat) (s : State)
@[simp] theorem respondIn_whole : respondIn st info o .whole s = s.respond st info o := rfl
@[simp] theorem respondIn_moves_zero : respondIn st info o (.moves 0) s = s := rfl
@[simp] theorem respondIn_moves_succ : respondIn st info o (.moves (n + 1)) s = s.respond st info o := rfl
@[simp] theorem raiseIn_whole : raiseIn x .whole s = s.raise x := rfl
@[simp] theorem raiseIn_moves_zero : raiseIn x (.moves 0) s = s := rfl
@[simp] theorem raiseIn_moves_succ : raiseIn x (.moves (n + 1)) s = s.raise x := rfl
@[simp] theorem perform_nil : perform [] s = s.respond .ok 0 0 := rfl
@[simp] theorem performIn_nil (span : Span) : performIn [] span s = respondIn .ok 0 0 span s := rfl
end

section
variable {s : State} {r v : Byte} {ms : Word} {rest : List Op} {span span' span'' : Span} {e : Env}

theorem performIn_memWrite_cut (h1 : span.next = none) : performIn (.memWrite r v :: rest) span s = s := by
  simp [performIn, h1]

theorem performIn_memWrite_unanswered (h1 : span.next = some span') (h2 : span'.next = none) :
    performIn (.memWrite r v :: rest) span s = (s.emitWrite r v).waitAt ⟨.answer r v, rest⟩ := by
  simp [performIn, awaitAnswer, h1, h2]

theorem performIn_memWrite_done (h1 : span.next = some span') (h2 : span'.next = some span'')
    (h : s.env.takeAnswer = some (.done, e)) :
    performIn (.memWrite r v :: rest) span s = performIn rest span'' (s.ran [.memWrite r v] e) := by
  simp [performIn, awaitAnswer, h, h1, h2, State.ran, State.emitWrite, State.writeDone, State.withEnv, opsEvents, Op.events,
    writeCount, writeAll]

theorem performIn_memWrite_failed (h1 : span.next = some span') (h2 : span'.next = some span'')
    (h : s.env.takeAnswer = some (.failed, e)) :
    performIn (.memWrite r v :: rest) span s =
      raiseIn (.transportError r) span'' (((s.emitWrite r v).withEnv e).writeFailed r) := by
  simp [performIn, awaitAnswer, h, h1, h2]

theorem performIn_memWrite_wait (h1 : span.next = some span') (h : s.env.takeAnswer = none) :
    performIn (.memWrite r v :: rest) span s = (s.emitWrite r v).waitAt ⟨.answer r v, rest⟩ := by
  rcases h2 : span'.next <;> simp [performIn, awaitAnswer, h, h1, h2]

theorem performIn_delay_cut (h1 : span.next = none) : performIn (.delay ms :: rest) span s = s := by
  simp [performIn, h1]

theorem performIn_delay_unreturned (h1 : span.next = some span') (h2 : span'.next = none) :
    performIn (.delay ms :: rest) span s = (s.emitDelay ms).waitAt ⟨.delayReturn, rest⟩ := by
  simp [performIn, awaitReturn, h1, h2]

theorem performIn_delay_returns (h1 : span.next = some span') (h2 : span'.next = some span'')
    (h : s.env.takeReturn = some e) :
    performIn (.delay ms :: rest) span s = performIn rest span'' (s.ran [.delay ms] e) := by
  simp [performIn, awaitReturn, h, h1, h2, State.ran, State.emitDelay, State.withEnv, opsEvents, Op.events, writeCount, writeAll]

theorem performIn_delay_wait (h1 : span.next = some span') (h : s.env.takeReturn = none) :
    performIn (.delay ms :: rest) span s = (s.emitDelay ms).waitAt ⟨.delayReturn, rest⟩ := by
  rcases h2 : span'.next <;> simp [performIn, awaitReturn, h, h1, h2]

theorem performIn_setInitDone : performIn (.setInitDone :: rest) span s = performIn rest span (s.ran [.setInitDone] s.env) := by
  simp [performIn, State.ran, State.setInitDone, opsEvents, Op.events, writeCount, writeAll]

theorem perform_memWrite_done (h : s.env.takeAnswer = some (.done, e)) :
    perform (.memWrite r v :: rest) s = perform rest (s.ran [.memWrite r v] e) := performIn_memWrite_done rfl rfl h

theorem perform_memWrite_failed (h : s.env.takeAnswer = some (.failed, e)) :
    perform (.memWrite r v :: rest) s =
      (((s.emitWrite r v).withEnv e).writeFailed r).raise (.transportError r) := by
  rw [perform, performIn_memWrite_failed Span.next_whole Span.next_whole h, raiseIn_whole]

theorem perform_memWrite_wait (h : s.env.takeAnswer = none) :
    perform (.memWrite r v :: rest) s = (s.emitWrite r v).waitAt ⟨.answer r v, rest⟩ := performIn_memWrite_wait rfl h

theorem perform_delay_returns (h : s.env.takeReturn = some e) :
    perform (.delay ms :: rest) s = perform rest (s.ran [.delay ms] e) := performIn_delay_returns rfl rfl h

theorem perform_delay_wait (h : s.env.takeReturn = none) :
    perform (.delay ms :: rest) s = (s.emitDelay ms).waitAt ⟨.delayReturn, rest⟩ := performIn_delay_wait rfl h

theorem perform_setInitDone : perform (.setInitDone :: rest) s = perform rest (s.ran [.setInitDone] s.env) :=
  performIn_setInitDone
end

/-- Steps that are served are performed, and the rest goes on from there. -/
theorem perform_append {done : List Op} {s : State} {e : Env} (h : Env.serve (opsEvents done) s.env = some e) (rest : List Op) :
    perform (done ++ rest) s = perform rest (s.ran done e) := by
  induction done generalizing s with
  | nil =>
    simp only [opsEvents, Env.serve, Option.some.injEq] at h
    simp [← h]
  | cons op done ih =>
    cases op with
    | memWrite r v =>
      simp only [opsEvents, Op.events, List.cons_append, List.nil_append, Env.serve] at h
      rcases h' : s.env.takeAnswer with _ | ⟨_ | _, e1⟩ <;> rw [h'] at h <;> try simp at h
      rw [List.cons_append, perform_memWrite_done h', ih (by simpa using h), State.ran_ran]
      simp
    | delay ms =>
      simp only [opsEvents, Op.events, List.cons_append, List.nil_append, Env.serve] at h
      rcases h' : s.env.takeReturn with _ | e1 <;> rw [h'] at h
      · simp at h
      · rw [List.cons_append, perform_delay_returns h', ih (by simpa using h), State.ran_ran]
        simp
    | setInitDone =>
      simp only [opsEvents, Op.events, List.nil_append] at h
      rw [List.cons_append, perform_setInitDone, ih (by simpa using h), State.ran_ran]
      simp

/-- Served to the end, a command responds OK. -/
theorem perform_served {ops : List Op} {s : State} {e : Env} (h : Env.serve (opsEvents ops) s.env = some e) :
    perform ops s = (s.ran ops e).respond .ok 0 0 := by
  have := perform_append h []
  simpa using this

/-- What performing the steps `ops` from `s` can answer. -/
inductive Performed (s : State) (ops : List Op) : State → Prop where
  /-- every step served: the command has ended with OK -/
  | completed (e : Env) (served : Env.serve (opsEvents ops) s.env = some e) : Performed s ops ((s.ran ops e).respond .ok 0 0)
  /-- a write answered failed: the command has ended with TRANSPORT_ERROR -/
  | failed (done : List Op) (r v : Byte) (rest : List Op) (e e' : Env) (split : ops = done ++ .memWrite r v :: rest)
      (served : Env.serve (opsEvents done) s.env = some e) (answer : e.takeAnswer = some (.failed, e')) :
      Performed s ops (((((s.ran done e).emitWrite r v).withEnv e').writeFailed r).raise (.transportError r))
  /-- a write not answered: the command waits -/
  | waitAnswer (done : List Op) (r v : Byte) (rest : List Op) (e : Env) (split : ops = done ++ .memWrite r v :: rest)
      (served : Env.serve (opsEvents done) s.env = some e) (answer : e.takeAnswer = none) :
      Performed s ops (((s.ran done e).emitWrite r v).waitAt ⟨.answer r v, rest⟩)
  /-- a delay that does not return: the command waits -/
  | waitReturn (done : List Op) (ms : Word) (rest : List Op) (e : Env) (split : ops = done ++ .delay ms :: rest)
      (served : Env.serve (opsEvents done) s.env = some e) (noReturn : e.takeReturn = none) :
      Performed s ops (((s.ran done e).emitDelay ms).waitAt ⟨.delayReturn, rest⟩)

/-- Every list of steps is served to the end, or is split by the first one that is not. -/
theorem serve_or_split (ops : List Op) (e : Env) :
    (∃ e', Env.serve (opsEvents ops) e = some e') ∨
    (∃ done op rest e', ops = done ++ op :: rest ∧ Env.serve (opsEvents done) e = some e' ∧ Env.serve op.events e' = none) := by
  induction ops generalizing e with
  | nil => exact .inl ⟨e, rfl⟩
  | cons op ops ih =>
    rcases h : Env.serve op.events e with _ | e1
    · exact .inr ⟨[], op, ops, e, rfl, rfl, h⟩
    · rcases ih e1 with ⟨e', h'⟩ | ⟨done, op', rest, e', h1, h2, h3⟩
      · exact .inl ⟨e', by simp [opsEvents, Env.serve_append, h, h']⟩
      · exact .inr ⟨op :: done, op', rest, e', by simp [h1], by simp [opsEvents, Env.serve_append, h, h2], h3⟩

/-- Everything `perform` can do. -/
theorem perform_cases (ops : List Op) (s : State) : Performed s ops (perform ops s) := by
  rcases serve_or_split ops s.env with ⟨e, h⟩ | ⟨done, op, rest, e, rfl, h, hn⟩
  · rw [perform_served h]
    exact .completed e h
  · rw [perform_append h]
    cases op with
    | memWrite r v =>
      simp only [Op.events, Env.serve] at hn
      rcases h' : e.takeAnswer with _ | ⟨_ | _, e1⟩
      · rw [perform_memWrite_wait (by simpa using h')]
        exact .waitAnswer done r v rest e rfl h h'
      · simp [h'] at hn
      · rw [perform_memWrite_failed (s := s.ran done e) h']
        exact .failed done r v rest e e1 rfl h h'
    | delay ms =>
      simp only [Op.events, Env.serve] at hn
      rcases h' : e.takeReturn with _ | e1
      · rw [perform_delay_wait (by simpa using h')]
        exact .waitReturn done ms rest e rfl h h'
      · simp [h'] at hn
    | setInitDone => simp [Op.events, Env.serve] at hn

/-- What a command emits, in every environment. -/
theorem perform_trace (ops : List Op) (s : State) : (perform ops s).trace = s.trace ++ emitted (opsEvents ops) s.env := by
  have hc := perform_cases ops s
  generalize perform ops s = t at hc
  cases hc with
  | completed e h => simpa [emitted] using (emitted_append h []).symm
  | failed done r v rest e e' hs h ha =>
    subst hs
    simp [opsEvents, Op.events, emitted_append h, emitted, ha]
  | waitAnswer done r v rest e hs h ha =>
    subst hs
    simp [opsEvents, Op.events, emitted_append h, emitted, ha]
  | waitReturn done ms rest e hs h hr =>
    subst hs
    simp [opsEvents, Op.events, emitted_append h, emitted, hr]

/-- A command whose first failed write is to `r` ends with TRANSPORT_ERROR and INFO = `r`. -/
theorem perform_firstFailure {ops : List Op} {s : State} {r : Byte} (h : firstFailure (opsEvents ops) s.env = some r) :
    ∃ done v rest e e', ops = done ++ .memWrite r v :: rest ∧ Env.serve (opsEvents done) s.env = some e ∧
      e.takeAnswer = some (.failed, e') ∧
      perform ops s = ((((s.ran done e).emitWrite r v).withEnv e').writeFailed r).raise (.transportError r) := by
  have hc := perform_cases ops s
  generalize perform ops s = t at hc
  cases hc with
  | completed e hs =>
    have := firstFailure_append hs []
    simp [firstFailure] at this
    simp [this] at h
  | failed done r' v rest e e' hs h' ha =>
    subst hs
    simp [opsEvents, Op.events, firstFailure_append h', firstFailure, ha] at h
    subst h
    exact ⟨done, v, rest, e, e', rfl, h', ha, rfl⟩
  | waitAnswer done r' v rest e hs h' ha =>
    subst hs
    simp [opsEvents, Op.events, firstFailure_append h', firstFailure, ha] at h
  | waitReturn done ms rest e hs h' hr =>
    subst hs
    simp [opsEvents, Op.events, firstFailure_append h', firstFailure, hr] at h

/-! ### A command cut off by reset -/

/-- What performing the steps `ops` from `s` can come to when reset is asserted after some number of moves, before the abandonment. -/
inductive CutOff (s : State) (ops : List Op) : State → Prop where
  /-- reset comes after the last move -/
  | whole : CutOff s ops (perform ops s)
  /-- reset comes before a step or before the response, with all before it served -/
  | between (done rest : List Op) (e : Env) (split : ops = done ++ rest)
      (served : Env.serve (opsEvents done) s.env = some e) : CutOff s ops (s.ran done e)
  /-- reset comes before the answer to a write -/
  | unanswered (done : List Op) (r v : Byte) (rest : List Op) (e : Env) (split : ops = done ++ .memWrite r v :: rest)
      (served : Env.serve (opsEvents done) s.env = some e) :
      CutOff s ops (((s.ran done e).emitWrite r v).waitAt ⟨.answer r v, rest⟩)
  /-- reset comes before the return of a delay -/
  | unreturned (done : List Op) (ms : Word) (rest : List Op) (e : Env) (split : ops = done ++ .delay ms :: rest)
      (served : Env.serve (opsEvents done) s.env = some e) :
      CutOff s ops (((s.ran done e).emitDelay ms).waitAt ⟨.delayReturn, rest⟩)
  /-- reset comes between a failed answer and the response -/
  | failed (done : List Op) (r v : Byte) (rest : List Op) (e e' : Env) (split : ops = done ++ .memWrite r v :: rest)
      (served : Env.serve (opsEvents done) s.env = some e) (answer : e.takeAnswer = some (.failed, e')) :
      CutOff s ops ((((s.ran done e).emitWrite r v).withEnv e').writeFailed r)

/-- A step served first makes no difference to where reset can cut. -/
theorem CutOff.cons {s t : State} {op : Op} {ops : List Op} {e : Env} (h : Env.serve (opsEvents [op]) s.env = some e)
    (hc : CutOff (s.ran [op] e) ops t) : CutOff s (op :: ops) t := by
  have served {done : List Op} {e' : Env} (h' : Env.serve (opsEvents done) (s.ran [op] e).env = some e') :
      Env.serve (opsEvents (op :: done)) s.env = some e' := by
    rw [show op :: done = [op] ++ done from rfl, opsEvents_append, Env.serve_append, h]
    exact h'
  cases hc with
  | whole =>
    rw [← perform_append h ops]
    exact .whole
  | between done rest e' split h' =>
    rw [State.ran_ran]
    exact .between (op :: done) rest e' (by simp [split]) (served h')
  | unanswered done r v rest e' split h' =>
    rw [State.ran_ran]
    exact .unanswered (op :: done) r v rest e' (by simp [split]) (served h')
  | unreturned done ms rest e' split h' =>
    rw [State.ran_ran]
    exact .unreturned (op :: done) ms rest e' (by simp [split]) (served h')
  | failed done r v rest e' e'' split h' ha =>
    rw [State.ran_ran]
    exact .failed (op :: done) r v rest e' e'' (by simp [split]) (served h') ha

/-- Everything `performIn` can do in a span that reset ends. -/
theorem performIn_cases (ops : List Op) (n : Nat) (s : State) : CutOff s ops (performIn ops (.moves n) s) := by
  have atOnce (ops : List Op) (s : State) : CutOff s ops s := by
    have := CutOff.between (s := s) (ops := ops) [] ops s.env rfl rfl
    simpa using this
  induction ops generalizing n s with
  | nil =>
    cases n with
    | zero => exact atOnce [] s
    | succ n => exact .whole
  | cons op ops ih =>
    cases op with
    | setInitDone =>
      rw [performIn_setInitDone]
      exact .cons rfl (ih n _)
    | memWrite r v =>
      rcases n with _ | _ | n
      · exact atOnce _ s
      · have := CutOff.unanswered (s := s) (ops := .memWrite r v :: ops) [] r v ops s.env rfl rfl
        rw [performIn_memWrite_unanswered (Span.next_moves_succ 0) Span.next_moves_zero]
        simpa using this
      · rcases h : s.env.takeAnswer with _ | ⟨_ | _, e⟩
        · rw [performIn_memWrite_wait (Span.next_moves_succ _) h, ← perform_memWrite_wait h]
          exact .whole
        · rw [performIn_memWrite_done (Span.next_moves_succ _) (Span.next_moves_succ _) h]
          exact .cons (by simp [opsEvents, Op.events, Env.serve, h]) (ih n _)
        · rw [performIn_memWrite_failed (Span.next_moves_succ _) (Span.next_moves_succ _) h]
          cases n with
          | zero =>
            have := CutOff.failed (s := s) (ops := .memWrite r v :: ops) [] r v ops s.env e rfl rfl h
            simpa using this
          | succ n =>
            rw [raiseIn_moves_succ, ← perform_memWrite_failed h]
            exact .whole
    | delay ms =>
      rcases n with _ | _ | n
      · exact atOnce _ s
      · have := CutOff.unreturned (s := s) (ops := .delay ms :: ops) [] ms ops s.env rfl rfl
        rw [performIn_delay_unreturned (Span.next_moves_succ 0) Span.next_moves_zero]
        simpa using this
      · rcases h : s.env.takeReturn with _ | e
        · rw [performIn_delay_wait (Span.next_moves_succ _) h, ← perform_delay_wait h]
          exact .whole
        · rw [performIn_delay_returns (Span.next_moves_succ _) (Span.next_moves_succ _) h]
          exact .cons (by simp [opsEvents, Op.events, Env.serve, h]) (ih n _)

/-- Some number of moves performs steps that are served, and what is left of a span goes on with the rest. -/
theorem performIn_append {done : List Op} {s : State} {e : Env} (h : Env.serve (opsEvents done) s.env = some e) (rest : List Op) :
    ∃ k, ∀ n, performIn (done ++ rest) (.moves (n + k)) s = performIn rest (.moves n) (s.ran done e) := by
  induction done generalizing s with
  | nil =>
    simp only [opsEvents, Env.serve, Option.some.injEq] at h
    exact ⟨0, fun n => by simp [← h]⟩
  | cons op done ih =>
    cases op with
    | memWrite r v =>
      simp only [opsEvents, Op.events, List.cons_append, List.nil_append, Env.serve] at h
      rcases h' : s.env.takeAnswer with _ | ⟨_ | _, e1⟩ <;> rw [h'] at h <;> try simp at h
      obtain ⟨k, hk⟩ := ih (s := s.ran [.memWrite r v] e1) h
      refine ⟨k + 2, fun n => ?_⟩
      rw [← Nat.add_assoc, List.cons_append, performIn_memWrite_done (Span.next_moves_succ (n + k + 1)) (Span.next_moves_succ (n + k)) h', hk,
        State.ran_ran]
      simp
    | delay ms =>
      simp only [opsEvents, Op.events, List.cons_append, List.nil_append, Env.serve] at h
      rcases h' : s.env.takeReturn with _ | e1 <;> rw [h'] at h
      · simp at h
      · obtain ⟨k, hk⟩ := ih (s := s.ran [.delay ms] e1) h
        refine ⟨k + 2, fun n => ?_⟩
        rw [← Nat.add_assoc, List.cons_append, performIn_delay_returns (Span.next_moves_succ (n + k + 1)) (Span.next_moves_succ (n + k)) h', hk,
          State.ran_ran]
        simp
    | setInitDone =>
      simp only [opsEvents, Op.events, List.nil_append] at h
      obtain ⟨k, hk⟩ := ih (s := s.ran [.setInitDone] s.env) h
      refine ⟨k, fun n => ?_⟩
      rw [List.cons_append, performIn_setInitDone, hk, State.ran_ran]
      simp

/-- A span long enough is as good as a whole one. -/
theorem performIn_enough (ops : List Op) (s : State) : ∃ k, performIn ops (.moves k) s = perform ops s := by
  rcases serve_or_split ops s.env with ⟨e, h⟩ | ⟨done, op, rest, e, rfl, h, hn⟩
  · obtain ⟨k, hk⟩ := performIn_append h []
    exact ⟨1 + k, by simpa [perform_served h] using hk 1⟩
  · obtain ⟨k, hk⟩ := performIn_append h (op :: rest)
    refine ⟨3 + k, ?_⟩
    rw [hk, perform_append h]
    cases op with
    | memWrite r v =>
      simp only [Op.events, Env.serve] at hn
      rcases h' : e.takeAnswer with _ | ⟨_ | _, e1⟩
      · rw [performIn_memWrite_wait (Span.next_moves_succ 2) (by simpa using h'), perform_memWrite_wait (by simpa using h')]
      · simp [h'] at hn
      · rw [performIn_memWrite_failed (s := s.ran done e) (Span.next_moves_succ 2) (Span.next_moves_succ 1) h',
          perform_memWrite_failed (s := s.ran done e) h', raiseIn_moves_succ]
    | delay ms =>
      simp only [Op.events, Env.serve] at hn
      rcases h' : e.takeReturn with _ | e1
      · rw [performIn_delay_wait (Span.next_moves_succ 2) (by simpa using h'), perform_delay_wait (by simpa using h')]
      · simp [h'] at hn
    | setInitDone => simp [Op.events, Env.serve] at hn

/-! ### What every command leaves alone -/

theorem perform_frame (ops : List Op) (s : State) :
    (perform ops s).cfg = s.cfg ∧ (perform ops s).commands = s.commands ∧ (perform ops s).resetLine = s.resetLine ∧
      (perform ops s).envLine = s.envLine := by
  have hc := perform_cases ops s
  generalize perform ops s = t at hc
  cases hc <;> simp

/-- A register none of the events writes keeps what the image says of it. -/
theorem read_writeAll (es : List Event) (m : Memory) (a : Nat) (h : a ∉ writtenRegs es) : (writeAll es m).read a = m.read a := by
  induction es generalizing m with
  | nil => rfl
  | cons e es ih =>
    cases e with
    | w r v =>
      simp only [writtenRegs, List.mem_cons, not_or] at h
      simp [writeAll, ih _ h.2, h.1]
    | d ms => exact ih _ h

@[simp] theorem writes_append (a b : List Event) : writes (a ++ b) = writes a ++ writes b := by
  induction a with
  | nil => rfl
  | cons e a ih => cases e <;> simp [writes, ih]

@[simp] theorem writtenRegs_append (a b : List Event) : writtenRegs (a ++ b) = writtenRegs a ++ writtenRegs b := by
  induction a with
  | nil => rfl
  | cons e a ih => cases e <;> simp [writtenRegs, ih]

/-- A command changes the image at the registers its steps write and nowhere else. -/
theorem perform_image (ops : List Op) (s : State) (a : Nat) (h : a ∉ writtenRegs (opsEvents ops)) :
    (perform ops s).image.read a = s.image.read a := by
  have hc := perform_cases ops s
  generalize perform ops s = t at hc
  cases hc with
  | completed e _ => simpa using read_writeAll _ _ a h
  | failed done r v rest e e' hs _ _ =>
    subst hs
    simp [opsEvents, Op.events, writtenRegs] at h
    simp [h.2.1, read_writeAll _ _ a h.1]
  | waitAnswer done r v rest e hs _ _ =>
    subst hs
    simp [opsEvents, Op.events, writtenRegs] at h
    simp [read_writeAll _ _ a h.1]
  | waitReturn done ms rest e hs _ _ =>
    subst hs
    simp [opsEvents, Op.events, writtenRegs] at h
    simp [read_writeAll _ _ a h.1]

/-! ### The steps of the commands and the spec's traces -/

@[simp] theorem opsEvents_initSequence (c : Config) : opsEvents (initSequence c) = initTrace c := by
  have h : off16 centerAngle = 0x0133 := by decide
  unfold initSequence initTrace holdIf
  rw [h]
  cases c.softResetEn <;> cases c.wakeSettleEn <;> rfl

end Sys2Proof.Machine
end

