-- ==== Sys2Proof/Laws/Convert.lean ====
section
/-! SUPPORT. Laws/Convert.lean: the converter in terms of the division `omega` knows, the byte split, and the addresses and steps of
SERVO. -/

namespace Sys2Proof.Machine

/-! ### Truncating division and the two stages -/

theorem tdiv_of_nonneg {a b : Int} (ha : 0 ≤ a) : tdiv a b = a / b := Int.tdiv_eq_ediv_of_nonneg ha

theorem tdiv_neg_left (a b : Int) : tdiv (-a) b = -tdiv a b := Int.neg_tdiv ..

theorem tdiv_of_nonpos {a b : Int} (ha : a ≤ 0) : tdiv a b = -(-a / b) := by
  rw [← tdiv_of_nonneg (by omega), tdiv_neg_left, neg_neg]

/-- 40_convert.md R82, the second form of the formula. -/
theorem pulse_eq (angle : Int) : pulse angle = 700 + tdiv (angle * 1600) 180 := by
  simp [pulse, linearMap, angleInMin, angleInMax, pulseMinUs, pulseMaxUs]

/-- 40_convert.md R83, the second form of the formula. -/
theorem pulseToOff_eq (p : Int) : pulseToOff p = tdiv (p * 4096) 20000 := by
  simp [pulseToOff, linearMap, frameUs, frameHz, frameTicks]

theorem offCount_eq (angle : Int) : offCount angle = tdiv (pulse angle * 4096) 20000 := pulseToOff_eq _

/-- The pulse width by the sign of the angle, for `omega`. -/
theorem pulse_cases (angle : Int) :
    (0 ≤ angle ∧ pulse angle = 700 + angle * 1600 / 180) ∨ (angle < 0 ∧ pulse angle = 700 - -(angle * 1600) / 180) := by
  rw [pulse_eq]
  rcases le_or_gt 0 angle with h | h
  · exact .inl ⟨h, by rw [tdiv_of_nonneg (by omega)]⟩
  · exact .inr ⟨h, by rw [tdiv_of_nonpos (by omega)]; omega⟩

/-- The off-count by the sign of the pulse width, for `omega`. -/
theorem pulseToOff_cases (p : Int) :
    (0 ≤ p ∧ pulseToOff p = p * 4096 / 20000) ∨ (p < 0 ∧ pulseToOff p = -(-(p * 4096) / 20000)) := by
  rw [pulseToOff_eq]
  rcases le_or_gt 0 p with h | h
  · exact .inl ⟨h, tdiv_of_nonneg (by omega)⟩
  · exact .inr ⟨h, tdiv_of_nonpos (by omega)⟩

theorem offCount_cases (angle : Int) :
    (0 ≤ pulse angle ∧ offCount angle = pulse angle * 4096 / 20000) ∨
    (pulse angle < 0 ∧ offCount angle = -(-(pulse angle * 4096) / 20000)) := pulseToOff_cases _

/-! ### The byte split -/

/-- LOW of a count is the count's low byte (40_convert.md R85). -/
theorem lowByte_ofInt (x : Int) : lowByte (BitVec.ofInt 16 x) = BitVec.ofInt 8 x := by
  apply BitVec.eq_of_toNat_eq
  simp only [lowByte, BitVec.extractLsb'_toNat, BitVec.toNat_ofInt, Nat.shiftRight_zero]
  omega

/-- HIGH of a count is the low byte of the count shifted right by 8 (40_convert.md R85). -/
theorem highByte_ofInt (x : Int) : highByte (BitVec.ofInt 16 x) = BitVec.ofInt 8 (x >>> (8 : Nat)) := by
  apply BitVec.eq_of_toNat_eq
  simp only [highByte, BitVec.extractLsb'_toNat, BitVec.toNat_ofInt, Int.shiftRight_eq_div_pow, Nat.shiftRight_eq_div_pow]
  omega

/-! ### The addresses and the steps of SERVO -/

theorem channelReg_toNat {ch ofs : Nat} (hc : ch ≤ 15) (ho : ofs ≤ 3) : (channelReg ch ofs).toNat = 0x08 + 4 * ch + ofs := by
  simp only [channelReg, chBase, chStride, BitVec.toNat_ofNat]
  omega

theorem offLowReg_toNat {ch : Nat} (hc : ch ≤ 15) : (offLowReg ch).toNat = 0x0A + 4 * ch := by
  rw [offLowReg, channelReg_toNat hc (by decide)]
  simp only [offLOfs]
  omega

theorem offHighReg_toNat {ch : Nat} (hc : ch ≤ 15) : (offHighReg ch).toNat = 0x0B + 4 * ch := by
  rw [offHighReg, channelReg_toNat hc (by decide)]
  simp only [offHOfs]
  omega

/-- OFF-high is the register after OFF-low (20_memory.md R48). -/
theorem offLowReg_succ (ch : Nat) : offLowReg ch + 1 = offHighReg ch := by
  simp [offLowReg, offHighReg, channelReg, offLOfs, offHOfs, BitVec.ofNat_add, BitVec.add_assoc]

theorem channelValid_iff (ch : Nat) : channelValid ch = true ↔ ch ≤ 15 := by
  simp [channelValid, nChannels, Nat.lt_succ_iff]

theorem opsEvents_formPair (a : Byte) (v : Half) : opsEvents (formPair a v) = [.w a (lowByte v), .w (a + 1) (highByte v)] := rfl

theorem opsEvents_holdIf (b : Bool) (c : Config) : opsEvents (holdIf b c) = if b then [.d c.delayMs] else [] := by
  cases b <;> rfl

/-- The pair a SERVO writes is the spec's (41_servo_write.md R106). -/
theorem pairTrace_eq (ch : Nat) (angle : Int) :
    pairTrace ch angle = [.w (offLowReg ch) (lowByte (off16 angle)), .w (offHighReg ch) (highByte (off16 angle))] := by
  simp [pairTrace, off16, lowByte_ofInt, highByte_ofInt, offLowReg, offHighReg, channelReg, chBase, chStride, offLOfs, offHOfs]

/-- The same, as `simp` writes the numeral. -/
@[simp] theorem offLowReg_add_one (ch : Nat) : offLowReg ch + 1#8 = offHighReg ch := offLowReg_succ ch

@[simp] theorem opsEvents_lazyInit (c : Config) (d : Bool) : opsEvents (lazyInit c d) = initCommandTrace c d := by
  cases d <;> simp [lazyInit, initCommandTrace, opsEvents]

@[simp] theorem opsEvents_servoOps (c : Config) (d : Bool) (ch : Nat) (angle : Int) :
    opsEvents (servoOps c d ch angle) = servoTrace c d ch angle := by
  simp [servoOps, servoTrace, opsEvents_formPair, opsEvents_holdIf, pairTrace_eq, initCommandTrace]

@[simp] theorem setInitDone_mem_lazyInit (c : Config) (d : Bool) : Op.setInitDone ∈ lazyInit c d ↔ d = false := by
  cases d <;> simp [lazyInit, initSequence]

@[simp] theorem setInitDone_mem_servoOps (c : Config) (d : Bool) (ch : Nat) (angle : Int) :
    Op.setInitDone ∈ servoOps c d ch angle ↔ d = false := by
  cases c.postWriteDelayEn <;> simp [servoOps, formPair, holdIf, *]

end Sys2Proof.Machine
end

