-- ==== Sys2Proof/Laws/Decode.lean ====
section
/-! SUPPORT. Laws/Decode.lean: the fields of an encoded word, and the operands read back from them. -/

namespace Sys2Proof

/-! ### The fields of a command word (30_encoding.md R60) -/

section
variable (op : BitVec 4) (ch : Byte) (angle : Half)

@[simp] theorem opField_commandWord : opField (commandWord op ch angle) = op := by
  apply BitVec.eq_of_getLsbD_eq
  intro i hi
  simp [opField, commandWord]
  grind

@[simp] theorem rsvField_commandWord : rsvField (commandWord op ch angle) = 0 := by
  apply BitVec.eq_of_getLsbD_eq
  intro i hi
  simp [rsvField, commandWord]
  grind

@[simp] theorem chField_commandWord : chField (commandWord op ch angle) = ch := by
  apply BitVec.eq_of_getLsbD_eq
  intro i hi
  simp [chField, commandWord]
  grind

@[simp] theorem angleField_commandWord : angleField (commandWord op ch angle) = angle := by
  apply BitVec.eq_of_getLsbD_eq
  intro i hi
  simp [angleField, commandWord]
  grind

end

/-- A word is its four fields. -/
theorem commandWord_fields (cmd : Word) (h : rsvField cmd = 0) :
    commandWord (opField cmd) (chField cmd) (angleField cmd) = cmd := by
  rw [show (commandWord (opField cmd) (chField cmd) (angleField cmd)) =
    opField cmd ++ rsvField cmd ++ chField cmd ++ angleField cmd by rw [h]; rfl]
  apply BitVec.eq_of_getLsbD_eq
  intro i hi
  simp [opField, rsvField, chField, angleField]
  grind

/-- Appending words is arithmetic. -/
theorem toNat_append_eq {m n : Nat} (a : BitVec m) (b : BitVec n) : (a ++ b).toNat = a.toNat * 2 ^ n + b.toNat := by
  rw [BitVec.toNat_append, ← Nat.shiftLeft_add_eq_or_of_lt b.isLt, Nat.shiftLeft_eq]

/-- A command word as a number (30_encoding.md R66). -/
theorem commandWord_toNat (op : BitVec 4) (ch : Byte) (angle : Half) :
    (commandWord op ch angle).toNat = op.toNat * 0x10000000 + ch.toNat * 0x10000 + angle.toNat := by
  have h : (0 : BitVec 4).toNat = 0 := rfl
  simp only [commandWord, toNat_append_eq, h]
  ring

/-- The fields of a word as arithmetic on it (30_encoding.md R60). -/
theorem opField_toNat (cmd : Word) : (opField cmd).toNat = cmd.toNat / 0x10000000 := by
  have := cmd.isLt
  simp only [opField, BitVec.extractLsb'_toNat, Nat.shiftRight_eq_div_pow]
  omega

theorem rsvField_toNat (cmd : Word) : (rsvField cmd).toNat = cmd.toNat / 0x1000000 % 16 := by
  simp [rsvField, BitVec.extractLsb'_toNat, Nat.shiftRight_eq_div_pow]

theorem chField_toNat (cmd : Word) : (chField cmd).toNat = cmd.toNat / 0x10000 % 256 := by
  simp [chField, BitVec.extractLsb'_toNat, Nat.shiftRight_eq_div_pow]

theorem angleField_toNat (cmd : Word) : (angleField cmd).toNat = cmd.toNat % 0x10000 := by
  simp [angleField, BitVec.extractLsb'_toNat]

/-- The masks of the opcode map (30_encoding.md R62) as arithmetic. -/
theorem and_convMask (cmd : Word) : (cmd &&& 0xFFFF0000#32).toNat = cmd.toNat / 0x10000 * 0x10000 := by
  have h : cmd &&& 0xFFFF0000#32 = (cmd >>> 16) <<< 16 := by
    apply BitVec.eq_of_getLsbD_eq
    intro i hi
    interval_cases i <;> simp
  have := cmd.isLt
  rw [h, BitVec.toNat_shiftLeft, BitVec.toNat_ushiftRight, Nat.shiftRight_eq_div_pow, Nat.shiftLeft_eq]
  omega

theorem and_servoMask (cmd : Word) : (cmd &&& 0xFF000000#32).toNat = cmd.toNat / 0x1000000 * 0x1000000 := by
  have h : cmd &&& 0xFF000000#32 = (cmd >>> 24) <<< 24 := by
    apply BitVec.eq_of_getLsbD_eq
    intro i hi
    interval_cases i <;> simp
  have := cmd.isLt
  rw [h, BitVec.toNat_shiftLeft, BitVec.toNat_ushiftRight, Nat.shiftRight_eq_div_pow, Nat.shiftLeft_eq]
  omega

/-! ### The operands (30_encoding.md R61) -/

/-- `sext_16` is the two's-complement reading. -/
theorem sext16_eq_toInt (v : Half) : sext16 v = v.toInt := by
  simp only [sext16, BitVec.toInt_eq_toNat_cond]
  grind

theorem sext16_ofInt {angle : Int} (h : angleFits angle = true) : sext16 (BitVec.ofInt 16 angle) = angle := by
  simp only [angleFits, Bool.and_eq_true, decide_eq_true_eq] at h
  rw [sext16_eq_toInt, BitVec.toInt_ofInt]
  simp only [Int.bmod]
  grind

theorem ofInt_sext16 (v : Half) : BitVec.ofInt 16 (sext16 v) = v := by
  rw [sext16_eq_toInt, BitVec.ofInt_toInt]

theorem angleFits_sext16 (v : Half) : angleFits (sext16 v) = true := by
  have := v.isLt
  simp only [sext16, angleFits, Bool.and_eq_true]
  grind

theorem zext8_ofNat {ch : Nat} (h : channelFits ch = true) : zext8 (BitVec.ofNat 8 ch) = ch := by
  simp only [channelFits, decide_eq_true_eq] at h
  simp only [zext8, BitVec.toNat_ofNat]
  omega

theorem ofNat_zext8 (v : Byte) : BitVec.ofNat 8 (zext8 v) = v := by simp [zext8]

theorem channelFits_zext8 (v : Byte) : channelFits (zext8 v) = true := by
  have := v.isLt
  rw [channelFits, decide_eq_true_eq, zext8]
  omega

end Sys2Proof
end

