-- ==== Sys2Proof/Laws/PerInstr.lean ====
section
/-! SUPPORT. Laws/PerInstr.lean: statements made per instruction. Family RowMatch: the word of a well-formed command selects its
command's row of the opcode map (30_encoding.md R62). -/

namespace Sys2Proof.Laws.RowMatch

/-- The mask of a command's row (30_encoding.md R62). -/
def mask : Instr → Word
  | .conv _ => 0xFFFF0000#32
  | .servo _ _ => 0xFF000000#32
  | .init => 0xFFFFFFFF#32

/-- The match of a command's row (30_encoding.md R62). -/
def pattern : Instr → Word
  | .conv _ => 0x10000000
  | .servo _ _ => 0x20000000
  | .init => 0x30000000

/-- The encoding of a well-formed command, under its row's mask, is its row's match. -/
def Statement (i : Instr) : Prop := i.wellFormed = true → encode i &&& mask i = pattern i

theorem conv (angle : Int) : Statement (.conv angle) := by
  intro _
  apply BitVec.eq_of_toNat_eq
  have := (BitVec.ofInt 16 angle).isLt
  rw [mask, and_convMask, encode, commandWord_toNat]
  simp only [pattern, BitVec.ofNat_eq_ofNat, BitVec.toNat_ofNat]
  omega

theorem servo (ch : Nat) (angle : Int) : Statement (.servo ch angle) := by
  intro _
  apply BitVec.eq_of_toNat_eq
  have := (BitVec.ofInt 16 angle).isLt
  have := (BitVec.ofNat 8 ch).isLt
  rw [mask, and_servoMask, encode, commandWord_toNat]
  simp only [pattern, BitVec.ofNat_eq_ofNat, BitVec.toNat_ofNat] at *
  omega

theorem init : Statement .init := by
  intro _
  decide

end Sys2Proof.Laws.RowMatch
end

