-- ==== Sys2Proof/Laws/Step.lean ====
section
/-! SUPPORT. Laws/Step.lean: the cases of a step, and a command that waits and is resumed. -/

namespace Sys2Proof.Machine

/-! ### The meanings over the shared operations -/

@[simp] theorem exec_conv (angle : Int) (s : State) : exec (.conv angle) s = .next (s.respond .ok 0 (off16 angle)) := rfl

theorem exec_servo_valid {ch : Nat} (h : ch ≤ 15) (angle : Int) (s : State) :
    exec (.servo ch angle) s = .next (perform (servoOps s.cfg s.initDone ch angle) s) := by
  simp [exec, execServo, servoPlan, (channelValid_iff ch).2 h, carryOut, perform]

theorem exec_servo_invalid {ch : Nat} (h : 15 < ch) (angle : Int) (s : State) :
    exec (.servo ch angle) s = .next (s.raise (.invalidChannel ch)) := by
  have : channelValid ch = false := by
    rw [Bool.eq_false_iff, ne_eq, channelValid_iff]
    omega
  simp [exec, execServo, servoPlan, this, carryOut]

@[simp] theorem exec_init (s : State) : exec .init s = .next (perform (lazyInit s.cfg s.initDone) s) := rfl

/-- Every command, in every state, answers a next state. -/
theorem exec_next (i : Instr) (s : State) : ∃ t, exec i s = .next t := by
  cases i with
  | conv angle => exact ⟨_, rfl⟩
  | servo ch angle =>
    rcases le_or_gt ch 15 with h | h
    · exact ⟨_, exec_servo_valid h angle s⟩
    · exact ⟨_, exec_servo_invalid h angle s⟩
  | init => exact ⟨_, rfl⟩

/-- The steps a command performs in this state. -/
def StepsOf (s : State) (i : Instr) (ops : List Op) : Prop :=
  (i = .init ∧ ops = lazyInit s.cfg s.initDone) ∨
  ∃ ch angle, ch ≤ 15 ∧ i = .servo ch angle ∧ ops = servoOps s.cfg s.initDone ch angle

/-- Everything a command can answer from `s`. -/
inductive Executed (s : State) (i : Instr) : State → Prop where
  | converted (angle : Int) (isConv : i = .conv angle) : Executed s i (s.respond .ok 0 (off16 angle))
  | rejected (ch : Nat) (angle : Int) (isServo : i = .servo ch angle) (invalid : 15 < ch) :
      Executed s i (s.raise (.invalidChannel ch))
  | performed (ops : List Op) (steps : StepsOf s i ops) : Executed s i (perform ops s)

theorem exec_cases {i : Instr} {s t : State} (h : exec i s = .next t) : Executed s i t := by
  cases i with
  | conv angle =>
    cases h
    exact .converted angle rfl
  | servo ch angle =>
    rcases le_or_gt ch 15 with hch | hch
    · rw [exec_servo_valid hch] at h
      cases h
      exact .performed _ (.inr ⟨ch, angle, hch, rfl, rfl⟩)
    · rw [exec_servo_invalid hch] at h
      cases h
      exact .rejected ch angle rfl hch
  | init =>
    cases h
    exact .performed _ (.inl ⟨rfl, rfl⟩)

/-- A command is its plan, carried out with reset released throughout. -/
theorem exec_eq_carryOut (i : Instr) (s : State) : exec i s = .next (carryOut (planOf i s) .whole s) := by cases i <;> rfl

@[simp] theorem planOf_takeCommand (i : Instr) (s : State) : planOf i s.takeCommand = planOf i s := by cases i <;> rfl

/-! ### The cases of a step -/

theorem runReleased_eq_act (s : State) : runReleased s = .next (s.act .whole) := by
  unfold runReleased State.act acceptNext acceptWord wordPlan
  rcases s.busy with _ | b
  · rcases s.commands with _ | ⟨cmd, rest⟩
    · rfl
    · simp only
      rcases decode cmd with e | i
      · rfl
      · exact exec_eq_carryOut i _
  · rfl

theorem step_released {s : State} (h : s.resetNow = .released) : step s = .next (s.tick.act .whole) := by
  simp [step, runStep, h, runReleased_eq_act]

theorem step_inReset {s : State} (h : s.resetNow = .asserted) : step s = .next s.tick.holdReset := by
  simp [step, runStep, h]

theorem step_during {s : State} {n : Nat} (h : s.resetNow = .during n) : step s = .next (s.tick.act (.moves n)).holdReset := by
  simp [step, runStep, h]

theorem step_busy {s : State} {b : Busy} (h : s.resetNow = .released) (hb : s.busy = some b) :
    step s = .next (s.tick.advance b .whole) := by
  simp [step, runStep, runReleased, h, hb]

theorem step_idle {s : State} (h : s.resetNow = .released) (hb : s.busy = none) (hc : s.commands = []) :
    step s = .next s.tick := by
  simp [step, runStep, runReleased, acceptNext, h, hb, hc]

theorem step_command {s : State} {cmd : Word} {rest : List Word} (h : s.resetNow = .released) (hb : s.busy = none)
    (hc : s.commands = cmd :: rest) : step s = acceptWord cmd s.tick.takeCommand := by
  simp [step, runStep, runReleased, acceptNext, h, hb, hc]

theorem acceptWord_ok {cmd : Word} {i : Instr} (h : decode cmd = .ok i) (s : State) : acceptWord cmd s = exec i s := by
  simp [acceptWord, h]

theorem acceptWord_illegal {cmd : Word} {e : Illegal} (h : decode cmd = .error e) (s : State) :
    acceptWord cmd s = .next (s.raise .illegalCommand) := by
  simp [acceptWord, h]

/-- Every step answers a next state. -/
theorem step_next (s : State) : ∃ t, step s = .next t := by
  rcases h : s.resetNow with _ | _ | n
  · exact ⟨_, step_released h⟩
  · exact ⟨_, step_inReset h⟩
  · exact ⟨_, step_during h⟩

/-! ### Waiting and resuming -/

theorem advance_waits {s : State} {b : Busy} (span : Span) (h : s.env.serves b.wait = false) : s.advance b span = s := by
  simp [State.advance, h]

theorem advance_serves {s : State} {b : Busy} (span : Span) (h : s.env.serves b.wait = true) :
    s.advance b span = s.resume b span := by
  simp [State.advance, h]

section
variable {s : State} {r v : Byte} {rest : List Op} {span span' : Span} {e : Env}

theorem resumeIn_answer_done (h1 : span.next = some span') (h : s.env.takeAnswer = some (.done, e)) :
    s.resume ⟨.answer r v, rest⟩ span = performIn rest span' ((s.idle.withEnv e).writeDone r v) := by
  simp [State.resume, awaitAnswer, h1, h]

theorem resumeIn_answer_failed (h1 : span.next = some span') (h : s.env.takeAnswer = some (.failed, e)) :
    s.resume ⟨.answer r v, rest⟩ span = raiseIn (.transportError r) span' ((s.idle.withEnv e).writeFailed r) := by
  simp [State.resume, awaitAnswer, h1, h]

theorem resumeIn_return (h1 : span.next = some span') (h : s.env.takeReturn = some e) :
    s.resume ⟨.delayReturn, rest⟩ span = performIn rest span' (s.idle.withEnv e) := by
  simp [State.resume, awaitReturn, h1, h]

/-- Cut off before its wait has ended, a command is where it was. -/
theorem resumeIn_cut {b : Busy} (h1 : span.next = none) : s.resume b span = s.idle.waitAt b := by
  rcases b with ⟨_ | _, rest⟩ <;> simp [State.resume, awaitAnswer, awaitReturn, h1]

theorem resume_answer_done (h : s.env.takeAnswer = some (.done, e)) :
    s.resume ⟨.answer r v, rest⟩ .whole = perform rest ((s.idle.withEnv e).writeDone r v) := resumeIn_answer_done rfl h

theorem resume_answer_failed (h : s.env.takeAnswer = some (.failed, e)) :
    s.resume ⟨.answer r v, rest⟩ .whole = ((s.idle.withEnv e).writeFailed r).raise (.transportError r) := by
  rw [resumeIn_answer_failed Span.next_whole h, raiseIn_whole]

theorem resume_return (h : s.env.takeReturn = some e) :
    s.resume ⟨.delayReturn, rest⟩ .whole = perform rest (s.idle.withEnv e) := resumeIn_return rfl h
end

@[simp] theorem State.idle_waitAt {s : State} {b : Busy} (h : s.busy = some b) : s.idle.waitAt b = s := by
  simp [State.idle, State.waitAt, ← h]

/-! ### What a step can do -/

/-- Steps performed in a step of A2P: from the state `base`, the steps `ops`, all of a command accepted or the rest of one that
waited. -/
inductive Performing (s : State) : State → List Op → Prop where
  | accepted (hb : s.busy = none) (cmd : Word) (rest : List Word) (hc : s.commands = cmd :: rest) (i : Instr)
      (hd : decode cmd = .ok i) (ops : List Op) (steps : StepsOf s i ops) : Performing s s.takeCommand ops
  | answered (r v : Byte) (rest : List Op) (e : Env) (hb : s.busy = some ⟨.answer r v, rest⟩)
      (ha : s.env.takeAnswer = some (.done, e)) : Performing s ((s.idle.withEnv e).writeDone r v) rest
  | returned (rest : List Op) (e : Env) (hb : s.busy = some ⟨.delayReturn, rest⟩) (ha : s.env.takeReturn = some e) :
      Performing s (s.idle.withEnv e) rest

/-- With reset released throughout, those steps are performed. -/
theorem Performing.act_whole {s base : State} {ops : List Op} (h : Performing s base ops) : s.act .whole = perform ops base := by
  cases h with
  | accepted hb cmd rest hc i hd ops steps =>
    have : exec i s.takeCommand = .next (perform ops s.takeCommand) := by
      rcases steps with ⟨rfl, rfl⟩ | ⟨ch, angle, hch, rfl, rfl⟩
      · exact exec_init _
      · exact exec_servo_valid hch angle _
    rw [exec_eq_carryOut, planOf_takeCommand] at this
    simpa [State.act, hb, hc, wordPlan, hd] using this
  | answered r v ops e hb ha =>
    rw [show s.act .whole = s.advance ⟨.answer r v, ops⟩ .whole by simp [State.act, hb],
      advance_serves _ (by simp [Env.serves, ha]), resume_answer_done ha]
  | returned ops e hb ha =>
    rw [show s.act .whole = s.advance ⟨.delayReturn, ops⟩ .whole by simp [State.act, hb],
      advance_serves _ (by simp [Env.serves, ha]), resume_return ha]

/-- What A2P can come to in a step that reset ends, before the abandonment. -/
inductive ActedUntil (s : State) : State → Prop where
  /-- reset comes after the last move -/
  | whole : ActedUntil s (s.act .whole)
  /-- no command is accepted, or the one in progress is where it was -/
  | stays (h : s.busy ≠ none ∨ s.commands = []) : ActedUntil s s
  /-- a command is accepted and reset comes before its first event or its response -/
  | accepts (hb : s.busy = none) (cmd : Word) (rest : List Word) (hc : s.commands = cmd :: rest) : ActedUntil s s.takeCommand
  /-- reset cuts the steps of a command -/
  | cut (base : State) (ops : List Op) (hp : Performing s base ops) (t : State) (ht : CutOff base ops t) : ActedUntil s t
  /-- reset comes between a failed answer that was waited for and the response -/
  | failed (r v : Byte) (rest : List Op) (e : Env) (hb : s.busy = some ⟨.answer r v, rest⟩)
      (ha : s.env.takeAnswer = some (.failed, e)) : ActedUntil s ((s.idle.withEnv e).writeFailed r)

/-- The steps a plan holds are those of the command. -/
theorem planOf_steps {i : Instr} {s : State} {ops : List Op} (h : planOf i s = .steps ops) : StepsOf s i ops := by
  cases i with
  | conv angle => simp [planOf, convPlan] at h
  | servo ch angle =>
    simp only [planOf, servoPlan] at h
    split at h
    · rename_i hv
      cases h
      exact .inr ⟨ch, angle, (channelValid_iff ch).1 hv, rfl, rfl⟩
    · cases h
  | init =>
    cases h
    exact .inl ⟨rfl, rfl⟩

/-- A plan without steps comes to nothing or to all of it. -/
theorem carryOut_moves {p : Plan} (h : ∀ ops, p ≠ .steps ops) (n : Nat) (s : State) :
    carryOut p (.moves n) s = s ∨ carryOut p (.moves n) s = carryOut p .whole s := by
  cases p with
  | steps ops => exact absurd rfl (h ops)
  | reply st info o => cases n <;> simp [carryOut]
  | raise e => cases n <;> simp [carryOut]

theorem act_moves_cases (s : State) (n : Nat) : ActedUntil s (s.act (.moves n)) := by
  rcases hb : s.busy with _ | b
  · rcases hc : s.commands with _ | ⟨cmd, rest⟩
    · rw [show s.act (.moves n) = s by simp [State.act, hb, hc]]
      exact .stays (.inr hc)
    · have ha (span : Span) : s.act span = carryOut (wordPlan cmd s) span s.takeCommand := by simp [State.act, hb, hc]
      by_cases hp : ∃ ops, wordPlan cmd s = .steps ops
      · obtain ⟨ops, hp⟩ := hp
        rw [ha, hp]
        rcases hd : decode cmd with e | i
        · simp [wordPlan, hd] at hp
        · rw [wordPlan, hd] at hp
          exact .cut _ ops (.accepted hb cmd rest hc i hd ops (planOf_steps hp)) _ (performIn_cases ops n _)
      · rcases carryOut_moves (fun ops h => hp ⟨ops, h⟩) n s.takeCommand with h | h
        · rw [ha, h]
          exact .accepts hb cmd rest hc
        · rw [ha, h, ← ha]
          exact .whole
  · have hw (span : Span) : s.act span = s.advance b span := by simp [State.act, hb]
    rcases hsv : s.env.serves b.wait
    · rw [hw, advance_waits _ hsv]
      exact .stays (.inl (by simp [hb]))
    · rw [hw, advance_serves _ hsv]
      cases n with
      | zero =>
        rw [resumeIn_cut Span.next_moves_zero, State.idle_waitAt hb]
        exact .stays (.inl (by simp [hb]))
      | succ n =>
        rcases b with ⟨_ | _, rest⟩
        · rename_i r v
          rcases h : s.env.takeAnswer with _ | ⟨_ | _, e⟩
          · simp [Env.serves, h] at hsv
          · rw [resumeIn_answer_done (Span.next_moves_succ n) h]
            exact .cut _ rest (.answered r v rest e hb h) _ (performIn_cases rest n _)
          · rw [resumeIn_answer_failed (Span.next_moves_succ n) h]
            cases n with
            | zero => exact .failed r v rest e hb h
            | succ n =>
              rw [raiseIn_moves_succ, ← resume_answer_failed (v := v) (rest := rest) h, ← advance_serves _ hsv, ← hw]
              exact .whole
        · rcases h : s.env.takeReturn with _ | e
          · simp [Env.serves, h] at hsv
          · rw [resumeIn_return (Span.next_moves_succ n) h]
            exact .cut _ rest (.returned rest e hb h) _ (performIn_cases rest n _)

/-- Everything A2P can do in a step with reset released. -/
inductive Acted (s : State) : State → Prop where
  | idle (hb : s.busy = none) (hc : s.commands = []) : Acted s s
  | illegal (hb : s.busy = none) (cmd : Word) (rest : List Word) (hc : s.commands = cmd :: rest)
      (e : Illegal) (hd : decode cmd = .error e) : Acted s (s.takeCommand.raise .illegalCommand)
  | command (hb : s.busy = none) (cmd : Word) (rest : List Word) (hc : s.commands = cmd :: rest)
      (i : Instr) (hd : decode cmd = .ok i) (t : State) (ht : exec i s.takeCommand = .next t) : Acted s t
  | waits (b : Busy) (hb : s.busy = some b) (hw : s.env.serves b.wait = false) : Acted s s
  | answered (r v : Byte) (rest : List Op) (e : Env) (hb : s.busy = some ⟨.answer r v, rest⟩)
      (ha : s.env.takeAnswer = some (.done, e)) : Acted s (perform rest ((s.idle.withEnv e).writeDone r v))
  | failed (r v : Byte) (rest : List Op) (e : Env) (hb : s.busy = some ⟨.answer r v, rest⟩)
      (ha : s.env.takeAnswer = some (.failed, e)) :
      Acted s (((s.idle.withEnv e).writeFailed r).raise (.transportError r))
  | returned (rest : List Op) (e : Env) (hb : s.busy = some ⟨.delayReturn, rest⟩)
      (ha : s.env.takeReturn = some e) : Acted s (perform rest (s.idle.withEnv e))

theorem act_whole_cases (s : State) : Acted s (s.act .whole) := by
  rcases hb : s.busy with _ | ⟨w, rest⟩
  · rcases hc : s.commands with _ | ⟨cmd, rest⟩
    · rw [show s.act .whole = s by simp [State.act, hb, hc]]
      exact .idle hb hc
    · have ha : s.act .whole = carryOut (wordPlan cmd s) .whole s.takeCommand := by simp [State.act, hb, hc]
      rw [ha]
      rcases hd : decode cmd with e | i
      · rw [wordPlan, hd]
        exact .illegal hb cmd rest hc e hd
      · rw [wordPlan, hd]
        exact .command hb cmd rest hc i hd _ (exec_eq_carryOut i s.takeCommand)
  · rw [show s.act .whole = s.advance ⟨w, rest⟩ .whole by simp [State.act, hb]]
    rcases hsv : s.env.serves w
    · rw [advance_waits _ hsv]
      exact .waits _ hb hsv
    · rw [advance_serves _ hsv]
      cases w with
      | answer r v =>
        rcases h : s.env.takeAnswer with _ | ⟨_ | _, e⟩
        · simp [Env.serves, h] at hsv
        · rw [resume_answer_done h]
          exact .answered r v rest e hb h
        · rw [resume_answer_failed h]
          exact .failed r v rest e hb h
      | delayReturn =>
        rcases h : s.env.takeReturn with _ | e
        · simp [Env.serves, h] at hsv
        · rw [resume_return h]
          exact .returned rest e hb h

/-- Everything a step can answer from `s`. -/
inductive Stepped (s : State) : State → Prop where
  | released (h : s.resetNow = .released) (t : State) (ht : Acted s.tick t) : Stepped s t
  | inReset (h : s.resetNow = .asserted) : Stepped s s.tick.holdReset
  | cutOff (n : Nat) (h : s.resetNow = .during n) (t : State) (ht : ActedUntil s.tick t) : Stepped s t.holdReset

theorem step_cases {s t : State} (hs : step s = .next t) : Stepped s t := by
  rcases h : s.resetNow with _ | _ | n
  · rw [step_released h] at hs
    cases hs
    exact .released h _ (act_whole_cases _)
  · rw [step_inReset h] at hs
    cases hs
    exact .inReset h
  · rw [step_during h] at hs
    cases hs
    exact .cutOff n h _ (act_moves_cases _ _)

/-! ### Runs -/

/-- A run of one step more is the step and then the run, for any machine of the host's interface. -/
theorem run_of_step (M : Host.Core) {s t : M.State} (h : M.step s = .next t) (n : Nat) : M.run (n + 1) s = M.run n t := by
  simp [Host.Core.run, h]

/-- The same for A2P. -/
theorem run_step {s t : State} (h : step s = .next t) (n : Nat) :
    Host.Core.run Sys2Proof.core (n + 1) s = Host.Core.run Sys2Proof.core n t := run_of_step Sys2Proof.core h n

end Sys2Proof.Machine
end

