-- ==== Sys2Proof/Tests/Slice0.lean ====
section
/-! SUPPORT. Tests/Slice0.lean: the model's own tests, each expected result taken from the spec, and for each obligation with
hypotheses a state and operands that meet them. -/

namespace Sys2Proof.Tests

open Sys2Proof.Machine

/-! ### WellFormed: an ill-formed command for each check -/

theorem smoke_angle_too_large : (Instr.conv 32768).wellFormed = false := by decide
theorem smoke_angle_too_small : (Instr.servo 0 (-32769)).wellFormed = false := by decide
theorem smoke_channel_too_large : (Instr.servo 256 0).wellFormed = false := by decide
theorem smoke_ends_of_ranges :
    (Instr.servo 255 32767).wellFormed = true ∧ (Instr.conv (-32768)).wellFormed = true ∧ Instr.init.wellFormed = true := by decide

/-! ### Decoding: words written out from the formats of 30_encoding.md R60 -/

/-- Format A: `0001 0000 00000000 aaaaaaaaaaaaaaaa`, `conv 90` (R66). -/
theorem test_decode_conv : decode 0b00010000000000000000000001011010 = .ok (.conv 90) := by decide
/-- Format A with the sign bit, `conv -80` (95_test_vectors.md V2). -/
theorem test_decode_conv_negative : decode 0b00010000000000001111111110110000 = .ok (.conv (-80)) := by decide
/-- Format CA: `0010 0000 cccccccc aaaaaaaaaaaaaaaa`, `servo 15, 180` (R66). -/
theorem test_decode_servo : decode 0b00100000000011110000000010110100 = .ok (.servo 15 180) := by decide
/-- Format N: `0011 0000 00000000 0000000000000000` (R60). -/
theorem test_decode_init : decode 0b00110000000000000000000000000000 = .ok .init := by decide
/-- The illegal words of 95_test_vectors.md V6. -/
theorem test_decode_illegal :
    [0x00000000, 0xFFFFFFFF, 0x40000000, 0x1001005A, 0x1100005A, 0x2100005A, 0x30000001, 0x30010000].all
      (fun w => (decodeTableWord 32 w).isNone) = true := by decide

/-! ### One step on a small state -/

/-- A state after reset in the default configuration with the PRESCALE of 95_test_vectors.md part 3, given answers, and one
command word issued. -/
def given (initDone : Bool) (answers : List Answer) (cmd : Word) : State :=
  { State.resetWith (Config.defaults 0x79) with
    initDone := initDone
    env := { Env.ideal with answers := answers }
    commands := [cmd] }

/-- The next state of a step, as data. -/
def next (o : Host.Outcome State Fault Refusal) : Option State :=
  match o with
  | .next s => some s
  | .fault _ => none
  | .refused _ => none

/-- 95_test_vectors.md V2: `conv -79`, OFF = 0 by truncation. -/
theorem test_conv_truncates : (next (step (given false [] 0x1000FFB1))).map (·.responses) = some [0x00000000] := by decide
/-- 95_test_vectors.md V2: `conv -32768`. -/
theorem test_conv_most_negative : (next (step (given false [] 0x10008000))).map (·.responses) = some [0x0000178C] := by decide
/-- 95_test_vectors.md S6: `servo 0, 0` on a fresh controller. -/
theorem test_servo_fresh : (next (step (given false [] 0x20000000))).map (fun t => (t.trace, t.responses, t.initDone)) =
    some ([.w 0x00 0x11, .w 0xFE 0x79, .d 10, .w 0xFA 0x00, .w 0xFB 0x00, .w 0xFC 0x33, .w 0xFD 0x01, .w 0x00 0x01,
      .w 0x0A 0x8F, .w 0x0B 0x00, .d 10], [0x00000000], true) := by decide
/-- 95_test_vectors.md P4 row 3: `servo 3, 2172` with the high byte failed. -/
theorem test_servo_high_failed : (next (step (given true [.done, .failed] 0x2003087C))).map
    (fun t => (t.trace, t.responses, t.image.read 0x16, t.image.read 0x17)) =
    some ([.w 0x16 0x01, .w 0x17 0x10], [0x20170000], some 0x01, none) := by decide
/-- 95_test_vectors.md V5 row 5: `init` with the second write failed. -/
theorem test_init_failed : (next (step (given false [.done, .failed] 0x30000000))).map
    (fun t => (t.trace, t.responses, t.initDone)) = some ([.w 0x00 0x11, .w 0xFE 0x79], [0x20FE0000], false) := by decide
/-- 95_test_vectors.md V5 row 2: `init` in the REVISED preset with WAKE_SETTLE_EN. -/
theorem test_init_revised : (next (step { given false [] 0x30000000 with
      cfg := { (Config.defaults 0x79).revised with wakeSettleEn := true } })).map (·.trace) =
    some [.w 0x00 0x80, .d 10, .w 0x00 0x11, .w 0xFE 0x79, .d 10, .w 0xFA 0x00, .w 0xFB 0x00, .w 0xFC 0x33, .w 0xFD 0x01,
      .w 0x00 0x01, .d 10] := by decide
/-- 95_test_vectors.md P5 row 3: an illegal word. -/
theorem test_illegal_word : (next (step (given false [] 0x1001005A))).map (fun t => (t.trace, t.responses, t.initDone)) =
    some ([], [0x30000000], false) := by decide
/-- The host's interface: right after reset the next step runs the word. -/
theorem test_withFetchWord : (next (step (State.reset.withFetchWord 32 0x1000005A))).map (·.responses) = some [0x00000133] := by
  decide

/-! ### Witnesses: every statement with hypotheses has a state and operands that meet them -/

/-- After reset, out of reset, idle. -/
def fresh : State := State.resetWith (Config.defaults 0x79)
/-- INIT_DONE = 1. -/
def ready : State := { fresh with initDone := true }
/-- A transport that gives these answers and then no more. -/
def silentAfter (answers : List Answer) : Env := { answers := answers, standing := none, delays := .always }
/-- A SERVO on channel 15 waits for the answer to its high byte. -/
def waiting : State := { ready with
  env := silentAfter []
  trace := [.w 0x46 0xD7, .w 0x47 0x01]
  fates := [.answered .done]
  image := [(0x46, 0xD7)]
  busy := some ⟨.answer 0x47 0x01, [.delay 10]⟩ }
/-- The same SERVO waits for its post-write delay, which does not return. -/
def holding : State := { waiting with
  env := { silentAfter [] with delays := .only 0 }
  fates := [.answered .done, .answered .done]
  busy := some ⟨.delayReturn, []⟩ }

/-- 70_reset_and_hazards.md R170: the answer comes later, and the SERVO of 95_test_vectors.md V4 row 5 goes on to its end. -/
theorem test_late_answer : (next (step { waiting with envLine := [Env.ideal] })).map (fun t => (t.trace, t.responses)) =
    some ([.w 0x46 0xD7, .w 0x47 0x01, .d 10], [0x00000000]) := by decide
/-- 41_servo_write.md R108, 70_reset_and_hazards.md R170: both bytes written, the post-write delay does not return: no response. -/
theorem test_unreturned_delay : (next (step { given true [] 0x200F00B4 with env := { Env.ideal with delays := .only 0 } })).map
    (fun t => (t.trace, t.responses, t.busy)) =
    some ([.w 0x46 0xD7, .w 0x47 0x01, .d 10], [], some ⟨.delayReturn, []⟩) := by decide
/-- 41_servo_write.md R109: the first SERVO, its init sequence served and its high byte failed. -/
theorem test_first_servo_high_failed : (next (step (given false (List.replicate 8 .done ++ [.failed]) 0x200F00B4))).map
    (fun t => (t.responses, t.initDone, t.image.read 0x46, t.image.read 0x47)) = some ([0x20470000], true, some 0xD7, none) := by decide
/-- 70_reset_and_hazards.md R160: reset in mid-command. -/
theorem test_reset_in_mid_command : (next (step { waiting with resetLine := [.asserted] })).map
    (fun t => (t.trace, t.responses, t.initDone)) = some ([.w 0x46 0xD7, .w 0x47 0x01], [], false) := by decide
/-- 70_reset_and_hazards.md R160: reset between the two writes of a SERVO whose answers are at hand (V4 row 5). -/
theorem test_reset_between_writes : (next (step { given true [] 0x200F00B4 with resetLine := [.during 2] })).map
    (fun t => (t.trace, t.responses, t.initDone, t.busy)) = some ([.w 0x46 0xD7], [], false, none) := by decide
/-- 70_reset_and_hazards.md R160: reset before the response of a CONV. -/
theorem test_reset_before_response : (next (step { given true [] 0x1000005A with resetLine := [.during 0] })).map
    (fun t => (t.commands, t.responses, t.initDone)) = some ([], [], false) := by decide
/-- 70_reset_and_hazards.md R164: the low byte of 61 degrees is new and the high byte of 62 degrees is stale until its answer. -/
theorem test_partial_update_window : (next (step { given true [.done] 0x200F003D with
      env := { Env.ideal with answers := [.done], standing := none }
      image := [(0x46, 0x00), (0x47, 0x01)] })).map (fun t => (t.image.read 0x46, t.image.read 0x47)) =
    some (some 0xFE, some 0x01) := by decide

theorem witness_ResetAndOnlyResetClearsInitDone :
    ∃ t, step ready = .next t ∧ ready.resetNow = .released ∧ ready.initDone = true := ⟨_, rfl, rfl, rfl⟩
theorem witness_ResetInputAbandonsCommand : { waiting with resetLine := [.asserted] }.resetNow = .asserted := rfl
theorem witness_ResetInMidCommand : ∃ t u, ready.resetNow = .released ∧ step ready = .next t ∧
    step { ready with resetLine := .during 3 :: ready.resetLine.tail } = .next u := ⟨_, _, rfl, rfl, rfl⟩
theorem witness_ResetReachesEveryMoment :
    (∃ t, (given true [] 0x200F00B4).resetNow = .released ∧ step (given true [] 0x200F00B4) = .next t ∧
      (given true [] 0x200F00B4).trace ++ [.w 0x46 0xD7] <+: t.trace) ∧
    (∃ t, step (given true [] 0x200F00B4) = .next t ∧ t.busy = none) ∧
    (∃ e e', Env.afterWait waiting.busy { waiting with envLine := [Env.ideal] }.tick.env = some e ∧
      Env.serve [.d 10] e = some e' ∧
      ∃ t, step { waiting with envLine := [Env.ideal] } = .next t ∧ waiting.trace ++ [] ++ [.d 10] <+: t.trace) :=
  ⟨⟨_, rfl, rfl, by decide⟩, ⟨_, rfl, rfl⟩, ⟨_, _, rfl, rfl, _, rfl, by decide⟩⟩
theorem witness_DecodeOfEncode : (Instr.servo 255 (-32768)).wellFormed = true := by decide
theorem witness_EncodeOfDecode : decode 0x20FF8000#32 = .ok (.servo 255 (-32768)) := by decide
theorem witness_EncodeIsAssemblerWord : (-32768 : Int) ≤ -32768 ∧ (-32768 : Int) ≤ 32767 ∧ 255 ≤ 255 := by decide
theorem witness_StepRunsDecodedCommand :
    (given false [] 0x30000000).resetNow = .released ∧ (given false [] 0x30000000).busy = none ∧
    (given false [] 0x30000000).commands = [0x30000000#32] ∧ decode 0x30000000#32 = .ok .init := by decide
theorem witness_IllegalWordAnswered :
    (given true [] 0x30000001).resetNow = .released ∧ (given true [] 0x30000001).busy = none ∧
    (given true [] 0x30000001).commands = [0x30000001#32] ∧ 0x30000001#32 &&& 0xFFFF0000#32 ≠ 0x10000000#32 ∧
    0x30000001#32 &&& 0xFF000000#32 ≠ 0x20000000#32 ∧ 0x30000001#32 ≠ 0x30000000#32 := by decide
theorem witness_StepNeverStops : fresh.resetNow = .released ∧ fresh.busy = none ∧ fresh.commands = [] := by decide
theorem witness_BusyAcceptsNoCommand :
    (∃ t, waiting.busy = some ⟨.answer 0x47 0x01, [.delay 10]⟩ ∧ step waiting = .next t) ∧
    (waiting.resetNow = .released ∧ waiting.tick.env.answers = [] ∧ waiting.tick.env.standing = none) ∧
    (holding.resetNow = .released ∧ holding.busy = some ⟨.delayReturn, []⟩ ∧ holding.tick.env.delays = .only 0) :=
  ⟨⟨_, rfl, rfl⟩, by decide, by decide⟩
theorem witness_OneResponsePerCommand :
    ∃ t, (given false [.failed] 0x20000000).resetNow = .released ∧ (given false [.failed] 0x20000000).busy = none ∧
      (given false [.failed] 0x20000000).commands = [0x20000000#32] ∧ step (given false [.failed] 0x20000000) = .next t :=
  ⟨_, rfl, rfl, rfl, rfl⟩
theorem witness_CommandsEndWhenAllDone :
    (given false [.done] 0x20000000).resetNow = .released ∧ (given false [.done] 0x20000000).busy = none ∧
    (given false [.done] 0x20000000).commands = [0x20000000#32] ∧ (given false [.done] 0x20000000).tick.env.allDone :=
  ⟨rfl, rfl, rfl, by decide, rfl, rfl⟩
theorem witness_WaitingCommandEndsWhenAllDone :
    { waiting with envLine := [Env.ideal] }.resetNow = .released ∧ { waiting with envLine := [Env.ideal] }.busy ≠ none ∧
    { waiting with envLine := [Env.ideal] }.tick.env.allDone := ⟨rfl, by decide, by decide, rfl, rfl⟩
theorem witness_AllDoneServesEveryTrace : Env.ideal.allDone := ⟨by decide, rfl, rfl⟩
theorem witness_StepKeepsConfigAndOutputs : ∃ t, step waiting = .next t := ⟨_, rfl⟩
theorem witness_TruncatingDivision : (20000 : Int) ≠ 0 := by decide
theorem witness_StagesTruncateExactQuotient : (180 : Int) ≠ 0 := by decide
theorem witness_ReducedForms : (0 : Int) ≤ 0 ∧ (0 : Int) ≤ 700 := by decide
theorem witness_IntermediatesFit32Bits : (-32768 : Int) ≤ -32768 ∧ (-32768 : Int) ≤ 32767 := by decide
theorem witness_OffCountMonotone : (-80 : Int) ≤ -79 ∧ (0 : Int) ≤ 179 ∧ (179 : Int) < 180 := by decide
theorem witness_OffCountByteSplit : 0 ≤ offCount 32767 ∧ offCount 32767 ≤ 65535 := by decide
theorem witness_ConvCommandWord :
    (given false [] 0x10008000).resetNow = .released ∧ (given false [] 0x10008000).busy = none ∧
    (given false [] 0x10008000).commands = [0x10000000#32 ||| (0x8000#16).setWidth 32] := by decide
theorem witness_ChannelBlocksTile :
    (15 ≤ 15 ∧ 3 ≤ 3) ∧ channelReg 15 3 = channelReg 15 3 ∧ (0x08 ≤ 0x47 ∧ 0x47 ≤ 0x47) := by decide
theorem witness_ServoRejectsInvalidChannel : 15 < 16 ∧ 16 ≤ 255 ∧ 15 < 255 ∧ 255 ≤ 255 := by decide
theorem witness_ServoCompletesWhenServed :
    15 ≤ 15 ∧ Env.serve (servoTrace fresh.cfg fresh.initDone 15 180) fresh.env = some Env.ideal ∧
    Env.serve (servoTrace ready.cfg ready.initDone 15 180) ready.env = some Env.ideal := by decide
theorem witness_ServoEmitsLowBeforeHigh : 0 ≤ 15 ∧ 15 ≤ 15 := by decide
theorem witness_ServoTransportFailure :
    (15 ≤ 15 ∧ ready.initDone = true) ∧
    (silentAfter [.failed]).takeAnswer = some (.failed, silentAfter []) ∧
    (silentAfter [.done, .failed]).takeAnswer = some (.done, silentAfter [.failed]) ∧
    fresh.initDone = false ∧
    firstFailure (initTrace fresh.cfg) (silentAfter [.failed]) = some 0x00 ∧
    firstFailure (initTrace fresh.cfg) (silentAfter [.done, .done, .done, .done, .done, .done, .failed]) = some 0x00 ∧
    firstFailure (servoTrace fresh.cfg fresh.initDone 15 180) (silentAfter (List.replicate 7 .done ++ [.failed])) = some 0x46 ∧
    firstFailure (servoTrace fresh.cfg fresh.initDone 15 180) (silentAfter (List.replicate 8 .done ++ [.failed])) = some 0x47 ∧
    (0x47 : Byte).toNat = 0x08 + 4 * 15 + 3 := by decide
theorem witness_ServoWaitsBetweenTheTwoWrites :
    15 ≤ 15 ∧ ready.initDone = true ∧ (silentAfter [.done]).takeAnswer = some (.done, silentAfter []) ∧
    (silentAfter []).takeAnswer = none := by decide
theorem witness_CommandsWaitUntilServed :
    (15 ≤ 15 ∧ Env.serve (servoTrace ready.cfg ready.initDone 15 180) (silentAfter [.done]) = none ∧
      firstFailure (servoTrace ready.cfg ready.initDone 15 180) (silentAfter [.done]) = none) ∧
    (fresh.initDone = false ∧ Env.serve (initTrace fresh.cfg) (silentAfter []) = none ∧
      firstFailure (initTrace fresh.cfg) (silentAfter []) = none) ∧
    (ready.cfg.postWriteDelayEn = true ∧
      Env.serve ((if ready.initDone then [] else initTrace ready.cfg) ++ pairTrace 15 180) { Env.ideal with delays := .only 0 } =
        some { Env.ideal with delays := .only 0 } ∧
      Env.takeReturn { Env.ideal with delays := .only 0 } = none) := by decide
theorem witness_ServoLeavesCountInImage :
    0 ≤ 15 ∧ Env.serve (servoTrace fresh.cfg fresh.initDone 0 (-80)) fresh.env = some Env.ideal := by decide
theorem witness_ServoFrame :
    (∃ t, exec (.servo 15 180) fresh = .next t) ∧ (∃ t, exec (.servo 16 0) fresh = .next t) ∧
    (0x0C ≠ (offLowReg 15).toNat ∧ 0x0C ≠ (offHighReg 15).toNat ∧ 0x0C ∉ [0x00, 0xFA, 0xFB, 0xFC, 0xFD, 0xFE]) :=
  ⟨⟨_, rfl⟩, ⟨_, rfl⟩, by decide⟩
theorem witness_InitCompletesWhenServed :
    (fresh.initDone = false ∧ Env.serve (initTrace fresh.cfg) fresh.env = some Env.ideal) ∧ ready.initDone = true := by decide
theorem witness_InitWriteOrder : ∃ t, fresh.initDone = false ∧ exec .init fresh = .next t := ⟨_, rfl, rfl⟩
theorem witness_InitTransportFailure :
    fresh.initDone = false ∧ firstFailure (initTrace fresh.cfg) (silentAfter [.done, .failed]) = some 0xFE := by decide
theorem witness_InitFrame :
    (∃ t, exec .init fresh = .next t) ∧ ready.initDone = true ∧ 0x46 ∉ [0x00, 0xFA, 0xFB, 0xFC, 0xFD, 0xFE] :=
  ⟨⟨_, rfl⟩, rfl, by decide⟩
theorem witness_InitDoneExactlyAfterWholeSequence :
    (∃ t, fresh.initDone = false ∧ exec .init fresh = .next t ∧ t.initDone = true) ∧
    (∃ t, 15 ≤ 15 ∧ exec (.servo 15 180) { fresh with env := silentAfter [.failed] } = .next t ∧ t.initDone = false) :=
  ⟨⟨_, rfl, rfl, rfl⟩, ⟨_, by decide, rfl, rfl⟩⟩
theorem witness_CanonicalImageIsDeterminedByReads : Memory.wf [(0x00, 0x01), (0xFE, 0x79)] = true := by decide
theorem witness_StepKeepsMachineInvariant : MachineInv fresh ∧ ∃ t, step fresh = .next t :=
  ⟨⟨rfl, rfl, rfl, by simp [fresh], by simp [fresh], by simp [fresh]⟩, _, rfl⟩
theorem witness_PausedCommandEndsAsUninterrupted :
    (∃ t, { ready with env := silentAfter [.done], envLine := [silentAfter [.failed]] }.busy = none ∧ ready.resetLine = [] ∧
      exec (.servo 15 180) { ready with env := silentAfter [.done], envLine := [silentAfter [.failed]] } = .next t ∧
      t.busy = some ⟨.answer 0x47 0x01, [.delay 10]⟩ ∧ silentAfter [.failed] = ⟨[.failed], none, t.env.delays⟩) ∧
    (∃ t, { ready with env := { Env.ideal with delays := .only 0 }, envLine := [Env.ideal] }.busy = none ∧
      exec (.servo 15 180) { ready with env := { Env.ideal with delays := .only 0 }, envLine := [Env.ideal] } = .next t ∧
      t.busy = some ⟨.delayReturn, []⟩ ∧ Env.ideal = { t.env with delays := .always }) :=
  ⟨⟨_, rfl, rfl, rfl, by decide, rfl⟩, ⟨_, rfl, rfl, by decide, rfl⟩⟩
theorem witness_HistoryHasNoInfluence : ∃ t, step (given true [] 0x20000000) = .next t := ⟨_, rfl⟩
theorem witness_RunObservables :
    (given false [] 0x20000000).busy = none ∧ (given false [] 0x20000000).resetLine = [] ∧
    ∀ e ∈ (given false [] 0x20000000).env :: (given false [] 0x20000000).envLine, e.allDone :=
  ⟨rfl, rfl, by simp [given, State.resetWith, Env.allDone, Env.ideal]⟩
theorem witness_OnlyFirstServoInitialises :
    [((15 : Nat), (180 : Int))] ≠ [] ∧ (∀ p ∈ [((15 : Nat), (180 : Int))], p.1 ≤ 15 ∧ angleFits p.2 = true) ∧
    (given false [] 0x200F00B4).busy = none ∧ (given false [] 0x200F00B4).resetLine = [] ∧
    (given false [] 0x200F00B4).commands = [((15 : Nat), (180 : Int))].map (fun p => encode (.servo p.1 p.2)) ∧
    ∀ e ∈ (given false [] 0x200F00B4).env :: (given false [] 0x200F00B4).envLine, e.allDone :=
  ⟨by decide, by decide, by decide, by decide, by decide, by simp [given, State.resetWith, Env.allDone, Env.ideal]⟩

end Sys2Proof.Tests
end

section
/-! ### ALL_DONE environments (92_eei_decisions.md D22): what they answer, and that using answers up keeps them ALL_DONE -/

namespace Sys2Proof.Machine

namespace Env.allDone
variable {e : Env}

/-- Using up listed answers leaves an ALL_DONE environment. -/
theorem drop (h : e.allDone) (n : Nat) : Env.allDone { e with answers := e.answers.drop n } := by
  obtain ⟨answers, standing, delays⟩ := h
  exact ⟨fun a ha => answers a (List.mem_of_mem_drop ha), standing, delays⟩

/-- The next write is answered done, by the first listed answer or, when none is left, by the standing one. -/
theorem takeAnswer_eq (h : e.allDone) : e.takeAnswer = some (.done, { e with answers := e.answers.drop 1 }) := by
  obtain ⟨answers, standing, delays⟩ := e
  obtain ⟨hanswers, hstanding, -⟩ := h
  cases answers with
  | nil => simpa [Env.takeAnswer] using hstanding
  | cons a rest =>
    have ha : a = .done := hanswers a List.mem_cons_self
    simp [Env.takeAnswer, ha]

/-- The next delay returns, and nothing is used up. -/
theorem takeReturn_eq (h : e.allDone) : e.takeReturn = some e := by
  obtain ⟨-, -, hdelays⟩ := h
  simp [Env.takeReturn, hdelays]

/-- Every trace is served; each write uses one listed answer, as long as there is one. -/
theorem serve_eq (h : e.allDone) (es : List Event) :
    Env.serve es e = some { e with answers := e.answers.drop (writeCount es) } := by
  induction es generalizing e with
  | nil => simp [Env.serve, writeCount]
  | cons ev es ih =>
    cases ev with
    | w r v => simpa [Env.serve, h.takeAnswer_eq, writeCount] using ih (h.drop 1)
    | d ms => simp [Env.serve, h.takeReturn_eq, ih h, writeCount]

end Env.allDone

/-- Settles O20, by induction on the events: a write takes one answer, which is done, and a delay takes none. -/
theorem allDoneServesEveryTrace : Obligations.AllDoneServesEveryTrace :=
  fun es _ h => h.serve_eq es

end Sys2Proof.Machine
end

section
/-! ### Histories: two states that agree on all but what has been emitted, answered and written before make the same moves
(10_state.md R20, R24, log entry 8) -/

namespace Sys2Proof.Machine

/-- `s` with an empty history: what is left is all that a step can depend on. -/
def State.bare (s : State) : State := { s with trace := [], fates := [], responses := [], image := [] }

/-- Two states have the same bare state exactly if they agree on every field outside the history. -/
theorem State.bare_eq_iff {s s' : State} : s'.bare = s.bare ↔
    s'.cfg = s.cfg ∧ s'.initDone = s.initDone ∧ s'.busy = s.busy ∧ s'.commands = s.commands ∧ s'.resetLine = s.resetLine ∧
      s'.env = s.env ∧ s'.envLine = s.envLine := by
  simp [State.bare]

theorem State.env_of_bare {s s' : State} (h : s'.bare = s.bare) : s'.env = s.env := by
  obtain ⟨-, -, -, -, -, henv, -⟩ := State.bare_eq_iff.1 h
  exact henv

/-- From `s` to `t` the configuration stays and exactly these events, fates and responses are added. -/
structure Adds (s t : State) (es : List Event) (fs : List Fate) (rs : List Word) : Prop where
  cfg : t.cfg = s.cfg
  trace : t.trace = s.trace ++ es
  fates : t.fates = s.fates ++ fs
  responses : t.responses = s.responses ++ rs

/-- From `s` to `t` and from `s'` to `t'` A2P makes the same moves: the same outputs are added, and the ends agree on all but their
histories. -/
structure SameMoves (s s' t t' : State) : Prop where
  bare : t'.bare = t.bare
  adds : ∃ es fs rs, Adds s t es fs rs ∧ Adds s' t' es fs rs

/-- An operation whose moves do not depend on the history. -/
def HistoryBlind (f : State → State) : Prop := ∀ ⦃s s' : State⦄, s'.bare = s.bare → SameMoves s s' (f s) (f s')

theorem Adds.trans {s t u : State} {es es' : List Event} {fs fs' : List Fate} {rs rs' : List Word} (h : Adds s t es fs rs)
    (h' : Adds t u es' fs' rs') : Adds s u (es ++ es') (fs ++ fs') (rs ++ rs') where
  cfg := h'.cfg.trans h.cfg
  trace := by rw [h'.trace, h.trace, List.append_assoc]
  fates := by rw [h'.fates, h.fates, List.append_assoc]
  responses := by rw [h'.responses, h.responses, List.append_assoc]

theorem SameMoves.trans {s s' t t' u u' : State} (h : SameMoves s s' t t') (h' : SameMoves t t' u u') : SameMoves s s' u u' := by
  obtain ⟨-, es, fs, rs, a, a'⟩ := h
  obtain ⟨hb, es₁, fs₁, rs₁, b, b'⟩ := h'
  exact ⟨hb, _, _, _, a.trans b, a'.trans b'⟩

theorem HistoryBlind.comp {f g : State → State} (hg : HistoryBlind g) (hf : HistoryBlind f) : HistoryBlind (fun s => g (f s)) :=
  fun _ _ h => (hf h).trans (hg (hf h).bare)

/-- An update that adds fixed outputs, and whose other fields come from the bare state, is history blind. -/
theorem HistoryBlind.of_adds {f : State → State} (es : List Event) (fs : List Fate) (rs : List Word)
    (hb : ∀ s, (f s).bare = (f s.bare).bare) (ha : ∀ s, Adds s (f s) es fs rs) : HistoryBlind f :=
  fun s s' h => ⟨by rw [hb s', h, ← hb s], es, fs, rs, ha s, ha s'⟩

/-- The same for an update that adds no output. -/
theorem HistoryBlind.of_silent {f : State → State} (hb : ∀ s, (f s).bare = (f s.bare).bare) (ha : ∀ s, Adds s (f s) [] [] []) :
    HistoryBlind f := .of_adds [] [] [] hb ha

/-! #### The operations on the state -/

theorem Adds.of_eq {s t : State} (hc : t.cfg = s.cfg) (ht : t.trace = s.trace) (hf : t.fates = s.fates)
    (hr : t.responses = s.responses) : Adds s t [] [] [] := ⟨hc, by simp [ht], by simp [hf], by simp [hr]⟩

theorem historyBlind_id : HistoryBlind id := .of_silent (fun _ => rfl) fun _ => .of_eq rfl rfl rfl rfl

theorem historyBlind_idle : HistoryBlind State.idle := .of_silent (fun _ => rfl) fun _ => .of_eq rfl rfl rfl rfl

theorem historyBlind_tick : HistoryBlind State.tick := .of_silent (fun _ => rfl) fun _ => .of_eq rfl rfl rfl rfl

theorem historyBlind_takeCommand : HistoryBlind State.takeCommand := .of_silent (fun _ => rfl) fun _ => .of_eq rfl rfl rfl rfl

theorem historyBlind_setInitDone : HistoryBlind State.setInitDone := .of_silent (fun _ => rfl) fun _ => .of_eq rfl rfl rfl rfl

theorem historyBlind_waitAt (b : Busy) : HistoryBlind (·.waitAt b) := .of_silent (fun _ => rfl) fun _ => .of_eq rfl rfl rfl rfl

theorem historyBlind_withEnv (e : Env) : HistoryBlind (·.withEnv e) := .of_silent (fun _ => rfl) fun _ => .of_eq rfl rfl rfl rfl

theorem historyBlind_emitWrite (r v : Byte) : HistoryBlind (·.emitWrite r v) :=
  .of_adds [.w r v] [] [] (fun _ => rfl) fun _ => ⟨rfl, rfl, by simp, by simp⟩

theorem historyBlind_emitDelay (ms : Word) : HistoryBlind (·.emitDelay ms) :=
  .of_adds [.d ms] [] [] (fun _ => rfl) fun _ => ⟨rfl, rfl, by simp, by simp⟩

theorem historyBlind_writeDone (r v : Byte) : HistoryBlind (·.writeDone r v) :=
  .of_adds [] [.answered .done] [] (fun _ => rfl) fun _ => ⟨rfl, by simp, rfl, by simp⟩

theorem historyBlind_writeFailed (r : Byte) : HistoryBlind (·.writeFailed r) :=
  .of_adds [] [.answered .failed] [] (fun _ => rfl) fun _ => ⟨rfl, by simp, rfl, by simp⟩

theorem historyBlind_respond (st : Status) (info : Byte) (o : Half) : HistoryBlind (·.respond st info o) :=
  .of_adds [] [] [responseWord st info o] (fun _ => rfl) fun _ => ⟨rfl, by simp, by simp, rfl⟩

/-- The fate a reset records depends on the wait that it ends, not on the history. -/
theorem historyBlind_holdReset : HistoryBlind State.holdReset := fun s s' h => by
  obtain ⟨-, -, hbusy, -⟩ := State.bare_eq_iff.1 h
  have hbare : s'.bare.holdReset.bare = s.bare.holdReset.bare := by rw [h]
  exact ⟨hbare, [], abandonedFates s.busy, [],
    ⟨rfl, by simp, rfl, by simp⟩, ⟨rfl, by simp, by simp [hbusy], by simp⟩⟩

/-! #### Performing the steps of a command -/

theorem historyBlind_respondIn (st : Status) (info : Byte) (o : Half) (span : Span) : HistoryBlind (respondIn st info o span) := by
  unfold respondIn
  cases span.next with
  | none => exact historyBlind_id
  | some _ => exact historyBlind_respond st info o

theorem historyBlind_awaitAnswer (r v : Byte) (rest : List Op) {cont : Span → State → State}
    (hcont : ∀ span, HistoryBlind (cont span)) (span : Span) : HistoryBlind (awaitAnswer r v rest cont span) := fun s s' h => by
  unfold awaitAnswer
  rw [State.env_of_bare h]
  rcases span.next with _ | span'
  · exact historyBlind_waitAt _ h
  · rcases s.env.takeAnswer with _ | ⟨_ | _, e⟩
    · exact historyBlind_waitAt _ h
    · exact ((hcont span').comp <| (historyBlind_writeDone r v).comp <| historyBlind_withEnv e) h
    · exact ((historyBlind_respondIn _ _ _ span').comp <| (historyBlind_writeFailed r).comp <| historyBlind_withEnv e) h

theorem historyBlind_awaitReturn (rest : List Op) {cont : Span → State → State}
    (hcont : ∀ span, HistoryBlind (cont span)) (span : Span) : HistoryBlind (awaitReturn rest cont span) := fun s s' h => by
  unfold awaitReturn
  rw [State.env_of_bare h]
  rcases span.next with _ | span'
  · exact historyBlind_waitAt _ h
  · rcases s.env.takeReturn with _ | e
    · exact historyBlind_waitAt _ h
    · exact ((hcont span').comp (historyBlind_withEnv e)) h

theorem historyBlind_performIn (ops : List Op) (span : Span) : HistoryBlind (performIn ops span) := by
  induction ops generalizing span with
  | nil => exact historyBlind_respondIn .ok 0 0 span
  | cons op rest ih =>
    cases op with
    | memWrite r v =>
      simp only [performIn]
      cases span.next with
      | none => exact historyBlind_id
      | some span' => exact (historyBlind_awaitAnswer r v rest ih span').comp (historyBlind_emitWrite r v)
    | delay ms =>
      simp only [performIn]
      cases span.next with
      | none => exact historyBlind_id
      | some span' => exact (historyBlind_awaitReturn rest ih span').comp (historyBlind_emitDelay ms)
    | setInitDone => exact (ih span).comp historyBlind_setInitDone

theorem historyBlind_carryOut (p : Plan) (span : Span) : HistoryBlind (carryOut p span) := by
  cases p with
  | reply st info o => exact historyBlind_respondIn st info o span
  | raise e => exact historyBlind_respondIn e.status e.info 0 span
  | steps ops => exact historyBlind_performIn ops span

theorem historyBlind_resume (b : Busy) (span : Span) : HistoryBlind (·.resume b span) := by
  rcases b with ⟨_ | _, rest⟩
  · exact (historyBlind_awaitAnswer _ _ rest (historyBlind_performIn rest) span).comp historyBlind_idle
  · exact (historyBlind_awaitReturn rest (historyBlind_performIn rest) span).comp historyBlind_idle

theorem historyBlind_advance (b : Busy) (span : Span) : HistoryBlind (·.advance b span) := fun s s' h => by
  simp only [State.advance, State.env_of_bare h]
  cases s.env.serves b.wait with
  | false => exact historyBlind_id h
  | true => exact historyBlind_resume b span h

/-! #### The step -/

/-- What a word asks for is settled by the configuration and INIT_DONE. -/
theorem wordPlan_bare (cmd : Word) (s : State) : wordPlan cmd s.bare = wordPlan cmd s := rfl

theorem historyBlind_act (span : Span) : HistoryBlind (·.act span) := fun s s' h => by
  obtain ⟨-, -, hbusy, hcommands, -⟩ := State.bare_eq_iff.1 h
  have hplan (cmd : Word) : wordPlan cmd s' = wordPlan cmd s := by rw [← wordPlan_bare, h, wordPlan_bare]
  simp only [State.act, hbusy, hcommands, hplan]
  rcases s.busy with _ | b
  · rcases s.commands with _ | ⟨cmd, rest⟩
    · exact historyBlind_id h
    · exact ((historyBlind_carryOut _ span).comp historyBlind_takeCommand) h
  · exact historyBlind_advance b span h

/-- From two states that differ only in their histories, a step makes the same moves. -/
theorem step_sameMoves {s s' t : State} (h : s'.bare = s.bare) (hs : step s = .next t) :
    ∃ t', step s' = .next t' ∧ SameMoves s s' t t' := by
  obtain ⟨-, -, -, -, hline, -⟩ := State.bare_eq_iff.1 h
  have hreset : s'.resetNow = s.resetNow := by simp only [State.resetNow, hline]
  rcases hr : s.resetNow with _ | _ | n <;> rw [hr] at hreset
  · cases (step_released hr).symm.trans hs
    exact ⟨_, step_released hreset, ((historyBlind_act .whole).comp historyBlind_tick) h⟩
  · cases (step_inReset hr).symm.trans hs
    exact ⟨_, step_inReset hreset, (historyBlind_holdReset.comp historyBlind_tick) h⟩
  · cases (step_during hr).symm.trans hs
    exact ⟨_, step_during hreset, (historyBlind_holdReset.comp <| (historyBlind_act (.moves n)).comp historyBlind_tick) h⟩

/-- Settles O54: the two states have the same bare state, so a step makes the same moves from both. -/
theorem historyHasNoInfluence : Obligations.HistoryHasNoInfluence := by
  intro s t trace fates responses image hs
  obtain ⟨t', hs', hbare, es, fs, rs, a, a'⟩ :=
    step_sameMoves (s := s) (s' := { s with trace := trace, fates := fates, responses := responses, image := image }) rfl hs
  exact ⟨t', es, rs, hs', a.trace, a'.trace, a.responses, a'.responses, State.bare_eq_iff.1 hbare⟩

/-- Settles O21: the moves of a step only add outputs, whatever the state they start from. -/
theorem stepKeepsConfigAndOutputs : Obligations.StepKeepsConfigAndOutputs := by
  intro s t hs
  obtain ⟨-, -, -, es, fs, rs, a, -⟩ := step_sameMoves (s' := s) rfl hs
  exact ⟨a.cfg, a.trace ▸ List.prefix_append .., a.responses ▸ List.prefix_append .., a.fates ▸ List.prefix_append ..⟩

end Sys2Proof.Machine
end

section
/-! ### INIT_DONE and the step (10_state.md R20, R22, R27; 42_init.md R122, R124) -/

namespace Sys2Proof.Machine

/-- No step of a command clears INIT_DONE. -/
theorem perform_keeps_initDone (ops : List Op) {s : State} (h : s.initDone = true) : (perform ops s).initDone = true := by
  have hc := perform_cases ops s
  generalize perform ops s = t at hc
  cases hc <;> simp [h]

theorem exec_keeps_initDone {i : Instr} {s t : State} (ht : exec i s = .next t) (h : s.initDone = true) : t.initDone = true := by
  cases exec_cases ht with
  | converted angle _ => exact h
  | rejected ch angle _ _ => exact h
  | performed ops _ => exact perform_keeps_initDone ops h

theorem act_whole_keeps_initDone {s : State} (h : s.initDone = true) : (s.act .whole).initDone = true := by
  have hc := act_whole_cases s
  generalize s.act .whole = t at hc
  cases hc with
  | idle | illegal | waits | failed => exact h
  | command _ cmd rest _ i _ _ ht => exact exec_keeps_initDone ht h
  | answered r v rest e _ _ => exact perform_keeps_initDone rest h
  | returned rest e _ _ => exact perform_keeps_initDone rest h

/-- Settles O1, by the cases of a step with reset released. -/
theorem resetAndOnlyResetClearsInitDone : Obligations.ResetAndOnlyResetClearsInitDone := by
  refine ⟨rfl, fun c => ⟨rfl, rfl⟩, fun s t hs hr h => ?_⟩
  cases (step_released hr).symm.trans hs
  exact act_whole_keeps_initDone h

/-- The init sequence sets INIT_DONE as its last step and nowhere before. -/
theorem initSequence_eq (c : Config) :
    ∃ ops, initSequence c = ops ++ [.setInitDone] ∧ Op.setInitDone ∉ ops ∧ opsEvents ops = initTrace c := by
  refine ⟨_, rfl, ?_, ?_⟩
  · cases c.softResetEn <;> cases c.wakeSettleEn <;> simp [formPair, holdIf]
  · rw [← opsEvents_initSequence, initSequence, opsEvents_append _ [.setInitDone]]
    simp [opsEvents, Op.events]

/-- Steps that lead up to setting INIT_DONE set it exactly if they are all served. -/
theorem perform_initDone_iff {ops : List Op} (hops : Op.setInitDone ∉ ops) (rest : List Op) {s : State} (h : s.initDone = false) :
    (perform (ops ++ .setInitDone :: rest) s).initDone = true ↔ (Env.serve (opsEvents ops) s.env).isSome = true := by
  induction ops generalizing s with
  | nil => simp [perform_setInitDone, perform_keeps_initDone, opsEvents, Env.serve]
  | cons op ops ih =>
    have hops' : Op.setInitDone ∉ ops := fun hm => hops (List.mem_cons_of_mem _ hm)
    cases op with
    | memWrite r v =>
      rcases ha : s.env.takeAnswer with _ | ⟨_ | _, e⟩
      · simp [perform_memWrite_wait ha, h, opsEvents, Op.events, Env.serve, ha]
      · simpa [perform_memWrite_done ha, opsEvents, Op.events, Env.serve, ha] using ih hops' (s := s.ran [.memWrite r v] e) (by simp [h])
      · simp [perform_memWrite_failed ha, h, opsEvents, Op.events, Env.serve, ha]
    | delay ms =>
      rcases ha : s.env.takeReturn with _ | e
      · simp [perform_delay_wait ha, h, opsEvents, Op.events, Env.serve, ha]
      · simpa [perform_delay_returns ha, opsEvents, Op.events, Env.serve, ha] using ih hops' (s := s.ran [.delay ms] e) (by simp [h])
    | setInitDone => exact absurd List.mem_cons_self hops

/-- Where INIT_DONE = 0, an INIT and a SERVO with a valid channel begin with the init sequence (42_init.md R122). -/
theorem exec_begins_with_initSequence {s t : State} (h : s.initDone = false)
    (ht : exec .init s = .next t ∨ ∃ (ch : Nat) (angle : Int), ch ≤ 15 ∧ exec (.servo ch angle) s = .next t) :
    ∃ rest, t = perform (initSequence s.cfg ++ rest) s := by
  rcases ht with ht | ⟨ch, angle, hch, ht⟩
  · rw [exec_init, h] at ht
    cases ht
    exact ⟨[], by rw [List.append_nil]; rfl⟩
  · rw [exec_servo_valid hch, h] at ht
    cases ht
    exact ⟨_, by rw [servoOps, List.append_assoc]; rfl⟩

/-- Settles O46: both commands begin with the init sequence, and the step that sets INIT_DONE comes after all its events. -/
theorem initDoneExactlyAfterWholeSequence : Obligations.InitDoneExactlyAfterWholeSequence := by
  intro s t h ht
  obtain ⟨rest, rfl⟩ := exec_begins_with_initSequence h ht
  obtain ⟨ops, hseq, hops, hev⟩ := initSequence_eq s.cfg
  have hiff : (perform (initSequence s.cfg ++ rest) s).initDone = true ↔ (Env.serve (initTrace s.cfg) s.env).isSome = true := by
    rw [hseq, List.append_assoc, ← hev]
    exact perform_initDone_iff hops rest h
  refine ⟨hiff, fun hd => ?_⟩
  obtain ⟨e, he⟩ := Option.isSome_iff_exists.1 (hiff.1 hd)
  rw [perform_trace, opsEvents_append, opsEvents_initSequence, emitted_append he, ← List.append_assoc]
  exact List.prefix_append ..

/-- Settles O13: an idle A2P out of reset accepts the word and runs what it decodes to. -/
theorem stepRunsDecodedCommand : Obligations.StepRunsDecodedCommand := by
  intro s cmd rest i hr hb hc hd
  rw [step_command hr hb hc, acceptWord_ok hd]
  simp [State.takeCommand, State.tick, hc]

end Sys2Proof.Machine
end

section
/-! ### Pauses: a command that waited and is then served (10_state.md R26, 20_memory.md R47, log entries 3 and 4) -/

namespace Sys2Proof.Machine

/-- An environment that can always answer as another does, along a relation that taking an answer or a return keeps, serves what
the other serves. -/
theorem Env.serve_simulates {R : Env → Env → Prop}
    (hanswer : ∀ {e e' e₁ : Env} {a : Answer}, R e e' → e.takeAnswer = some (a, e₁) → ∃ e₁', e'.takeAnswer = some (a, e₁') ∧ R e₁ e₁')
    (hreturn : ∀ {e e' e₁ : Env}, R e e' → e.takeReturn = some e₁ → ∃ e₁', e'.takeReturn = some e₁' ∧ R e₁ e₁')
    {es : List Event} {e e' e₁ : Env} (h : R e e') (hs : Env.serve es e = some e₁) : ∃ e₁', Env.serve es e' = some e₁' ∧ R e₁ e₁' := by
  induction es generalizing e e' with
  | nil =>
    cases hs
    exact ⟨e', rfl, h⟩
  | cons ev es ih =>
    cases ev with
    | w r v =>
      rcases ha : e.takeAnswer with _ | ⟨_ | _, e₂⟩ <;> simp only [Env.serve, ha, reduceCtorEq] at hs
      obtain ⟨e₂', ha', h'⟩ := hanswer h ha
      simpa [Env.serve, ha'] using ih h' hs
    | d ms =>
      rcases ha : e.takeReturn with _ | e₂ <;> simp only [Env.serve, ha, reduceCtorEq] at hs
      obtain ⟨e₂', ha', h'⟩ := hreturn h ha
      simpa [Env.serve, ha'] using ih h' hs

/-! #### Taking an answer or a return, and an environment to which more is added -/

/-- `e` with these answers listed after its own, and this standing answer after them. -/
def Env.refill (late : List Answer) (standing : Option Answer) (e : Env) : Env := ⟨e.answers ++ late, standing, e.delays⟩

/-- `e` with a delay primitive that returns from every delay. -/
def Env.returning (e : Env) : Env := { e with delays := .always }

section
variable {e e₁ : Env} {a : Answer} {es : List Event} {late : List Answer} {standing : Option Answer}

theorem Env.takeAnswer_standing (h : e.takeAnswer = some (a, e₁)) : e₁.standing = e.standing := by
  obtain ⟨_ | ⟨b, answers⟩, _ | _, delays⟩ := e <;> cases h <;> rfl

theorem Env.takeReturn_standing (h : e.takeReturn = some e₁) : e₁.standing = e.standing := by
  obtain ⟨answers, standing, _ | _ | n⟩ := e <;> cases h <;> rfl

/-- No answer comes exactly if none is listed and none stands. -/
theorem Env.takeAnswer_eq_none_iff : e.takeAnswer = none ↔ e.answers = [] ∧ e.standing = none := by
  obtain ⟨_ | ⟨b, answers⟩, standing, delays⟩ := e <;> simp [Env.takeAnswer]

theorem Env.takeAnswer_refill (hs : e.standing = none) (h : e.takeAnswer = some (a, e₁)) :
    (e.refill late standing).takeAnswer = some (a, e₁.refill late standing) := by
  obtain ⟨_ | ⟨b, answers⟩, _, delays⟩ := e <;> cases hs <;> cases h
  rfl

theorem Env.takeReturn_refill (h : e.takeReturn = some e₁) :
    (e.refill late standing).takeReturn = some (e₁.refill late standing) := by
  obtain ⟨answers, _, _ | _ | n⟩ := e <;> cases h <;> rfl

theorem Env.takeAnswer_returning (h : e.takeAnswer = some (a, e₁)) : e.returning.takeAnswer = some (a, e₁.returning) := by
  obtain ⟨_ | ⟨b, answers⟩, _ | _, delays⟩ := e <;> cases h <;> rfl

theorem Env.takeReturn_returning (h : e.takeReturn = some e₁) : e.returning.takeReturn = some e₁.returning := by
  obtain ⟨answers, _, _ | _ | n⟩ := e <;> cases h <;> rfl

/-- Serving leaves the standing answer as it is. -/
theorem Env.serve_standing (h : Env.serve es e = some e₁) : e₁.standing = e.standing := by
  obtain ⟨-, -, -, h'⟩ := Env.serve_simulates (R := fun d d' => d' = d ∧ d.standing = e.standing)
    (fun ⟨hd, hR⟩ ha => ⟨_, hd ▸ ha, rfl, (Env.takeAnswer_standing ha).trans hR⟩)
    (fun ⟨hd, hR⟩ ha => ⟨_, hd ▸ ha, rfl, (Env.takeReturn_standing ha).trans hR⟩) ⟨rfl, rfl⟩ h
  exact h'

/-- What was served from listed answers is served as well with more of them listed behind. -/
theorem Env.serve_refill (hs : e.standing = none) (h : Env.serve es e = some e₁) :
    Env.serve es (e.refill late standing) = some (e₁.refill late standing) := by
  obtain ⟨_, h', -, rfl⟩ := Env.serve_simulates (R := fun d d' => d.standing = none ∧ d' = d.refill late standing)
    (fun ⟨hR, hd⟩ ha => ⟨_, hd ▸ Env.takeAnswer_refill hR ha, (Env.takeAnswer_standing ha).trans hR, rfl⟩)
    (fun ⟨hR, hd⟩ ha => ⟨_, hd ▸ Env.takeReturn_refill ha, (Env.takeReturn_standing ha).trans hR, rfl⟩) ⟨hs, rfl⟩ h
  exact h'

/-- What was served is served as well when every delay returns. -/
theorem Env.serve_returning (h : Env.serve es e = some e₁) : Env.serve es e.returning = some e₁.returning := by
  obtain ⟨_, h', rfl⟩ := Env.serve_simulates (R := fun d d' => d' = d.returning)
    (fun hd ha => ⟨_, hd ▸ Env.takeAnswer_returning ha, rfl⟩)
    (fun hd ha => ⟨_, hd ▸ Env.takeReturn_returning ha, rfl⟩) rfl h
  exact h'
end

/-! #### Performing a step that can wait is emitting its event and resuming from the wait -/

theorem perform_memWrite_eq_resume (r v : Byte) (rest : List Op) {s : State} (h : s.busy = none) :
    perform (.memWrite r v :: rest) s = (s.emitWrite r v).resume ⟨.answer r v, rest⟩ .whole := by
  rw [State.resume, show (s.emitWrite r v).idle = s.emitWrite r v by simp [State.idle, State.emitWrite, h]]
  rfl

theorem perform_delay_eq_resume (ms : Word) (rest : List Op) {s : State} (h : s.busy = none) :
    perform (.delay ms :: rest) s = (s.emitDelay ms).resume ⟨.delayReturn, rest⟩ .whole := by
  rw [State.resume, show (s.emitDelay ms).idle = s.emitDelay ms by simp [State.idle, State.emitDelay, h]]
  rfl

/-- Out of reset, a command whose wait the environment of the next step ends goes on in that step. -/
theorem step_waitAt {s s' : State} {b : Busy} (hr : s.resetLine = []) (ht : s.tick = s') (h : s'.env.serves b.wait = true) :
    step (s.waitAt b) = .next (s'.resume b .whole) := by
  subst ht
  rw [step_busy (b := b) (by simp [State.resetNow, hr]) rfl, advance_serves (s := (s.waitAt b).tick) .whole h]
  rfl

/-- The state `s` with `e` in store from the start and nothing later. -/
def State.served (s : State) (e : Env) : State := { s with env := e, envLine := [] }

/-- After served steps, taking the inputs of the next step leaves what the same steps leave when `e₀` was in store from the start and
`e'` of it is left. -/
theorem tick_ran {s : State} {ops : List Op} {e e' e₀ : Env} (hr : s.resetLine = []) (hl : s.envLine = [e']) :
    (s.ran ops e).tick = (s.served e₀).ran ops e' := by
  simp [State.ran, State.tick, State.served, hr, hl]

theorem exec_of_stepsOf {s : State} {i : Instr} {ops : List Op} (h : StepsOf s i ops) : exec i s = .next (perform ops s) := by
  rcases h with ⟨rfl, rfl⟩ | ⟨ch, angle, hch, rfl, rfl⟩
  · exact exec_init s
  · exact exec_servo_valid hch angle s

/-- With `e` in store from the start, a command performs its first steps if they are served, and goes on from there. -/
theorem exec_served {s : State} {i : Instr} {done rest : List Op} {e e' : Env} (steps : StepsOf s i (done ++ rest))
    (served : Env.serve (opsEvents done) e = some e') : exec i (s.served e) = .next (perform rest ((s.served e).ran done e')) := by
  rw [exec_of_stepsOf (s := s.served e) steps, perform_append (s := s.served e) served]

/-- A command that has come to wait has performed steps. -/
theorem exec_waits {i : Instr} {s t : State} {b : Busy} (hb : s.busy = none) (ht : exec i s = .next t) (hw : t.busy = some b) :
    ∃ ops, StepsOf s i ops ∧ t = perform ops s := by
  cases exec_cases ht with
  | converted angle _ => simp [hb] at hw
  | rejected ch angle _ _ => simp [hb] at hw
  | performed ops steps => exact ⟨ops, steps, rfl⟩

/-- Steps that wait for an answer have been performed up to a write that is not answered. -/
theorem perform_waits_answer {ops rest : List Op} {s : State} {r v : Byte} (hb : s.busy = none)
    (hw : (perform ops s).busy = some ⟨.answer r v, rest⟩) :
    ∃ done e, ops = done ++ .memWrite r v :: rest ∧ Env.serve (opsEvents done) s.env = some e ∧ e.takeAnswer = none ∧
      perform ops s = ((s.ran done e).emitWrite r v).waitAt ⟨.answer r v, rest⟩ := by
  have hc := perform_cases ops s
  generalize perform ops s = t at hc hw
  cases hc with
  | completed | failed => simp [hb] at hw
  | waitReturn done ms rest' e _ _ _ => simp at hw
  | waitAnswer done r' v' rest' e split served answer =>
    cases hw
    exact ⟨done, e, split, served, answer, rfl⟩

/-- Steps that wait for the delay primitive have been performed up to a delay that does not return. -/
theorem perform_waits_return {ops rest : List Op} {s : State} (hb : s.busy = none)
    (hw : (perform ops s).busy = some ⟨.delayReturn, rest⟩) :
    ∃ done ms e, ops = done ++ .delay ms :: rest ∧ Env.serve (opsEvents done) s.env = some e ∧
      perform ops s = ((s.ran done e).emitDelay ms).waitAt ⟨.delayReturn, rest⟩ := by
  have hc := perform_cases ops s
  generalize perform ops s = t at hc hw
  cases hc with
  | completed | failed => simp [hb] at hw
  | waitAnswer done r v rest' e _ _ _ => simp at hw
  | waitReturn done ms rest' e split served _ =>
    cases hw
    exact ⟨done, ms, e, split, served, rfl⟩

/-- The wait for an answer: the answers that come later are as good as answers listed from the start. -/
theorem paused_answer {i : Instr} {s t : State} {r v : Byte} {rest : List Op} {a : Answer} {late : List Answer}
    {standing : Option Answer} (hb : s.busy = none) (hr : s.resetLine = []) (ht : exec i s = .next t)
    (hw : t.busy = some ⟨.answer r v, rest⟩) (hl : s.envLine = [⟨a :: late, standing, t.env.delays⟩]) :
    step t = exec i (s.served (s.env.refill (a :: late) standing)) := by
  obtain ⟨ops, steps, rfl⟩ := exec_waits hb ht hw
  obtain ⟨done, e, rfl, served, answer, hp⟩ := perform_waits_answer hb hw
  rw [hp] at hl ⊢
  change s.envLine = [⟨a :: late, standing, e.delays⟩] at hl
  obtain ⟨hnone, hstanding⟩ := Env.takeAnswer_eq_none_iff.1 answer
  have hrefill : e.refill (a :: late) standing = ⟨a :: late, standing, e.delays⟩ := by simp [Env.refill, hnone]
  have served' := Env.serve_refill (late := a :: late) (standing := standing) ((Env.serve_standing served).symm.trans hstanding) served
  rw [hrefill] at served'
  rw [exec_served steps served', perform_memWrite_eq_resume]
  · exact step_waitAt hr (congrArg (·.emitWrite r v) (tick_ran hr hl)) rfl
  · exact hb

/-- The wait for the delay primitive: delays that return later are as good as delays that return from the start. -/
theorem paused_return {i : Instr} {s t : State} {rest : List Op} (hb : s.busy = none) (hr : s.resetLine = [])
    (ht : exec i s = .next t) (hw : t.busy = some ⟨.delayReturn, rest⟩) (hl : s.envLine = [t.env.returning]) :
    step t = exec i (s.served s.env.returning) := by
  obtain ⟨ops, steps, rfl⟩ := exec_waits hb ht hw
  obtain ⟨done, ms, e, rfl, served, hp⟩ := perform_waits_return hb hw
  rw [hp] at hl ⊢
  rw [exec_served steps (Env.serve_returning served), perform_delay_eq_resume]
  · exact step_waitAt hr (congrArg (·.emitDelay ms) (tick_ran hr hl)) rfl
  · exact hb

/-- Settles O53: after the wait, as without it, what is left is to resume from the same state. -/
theorem pausedCommandEndsAsUninterrupted : Obligations.PausedCommandEndsAsUninterrupted :=
  ⟨fun _ _ _ _ _ _ _ _ _ hb hr ht hw hl => paused_answer hb hr ht hw hl,
    fun _ _ _ _ hb hr ht hw hl => paused_return hb hr ht hw hl⟩

end Sys2Proof.Machine
end

section
/-! ### The register image (20_memory.md R48, R55) -/

namespace Sys2Proof.Machine

/-- Settles O48, by the memory's own rules. -/
theorem imageReadAfterUpdate : Obligations.ImageReadAfterUpdate := ⟨Memory.read_write, Memory.read_forget⟩

/-- Two canonical memories that say the same of every address are the same list. -/
theorem Memory.eq_of_read_eq {lo : Nat} {m m' : Memory} (h : Memory.wfFrom lo m = true) (h' : Memory.wfFrom lo m' = true)
    (hr : ∀ a, m.read a = m'.read a) : m = m' := by
  induction m generalizing lo m' with
  | nil =>
    cases m' with
    | nil => rfl
    | cons c' m' => simpa [Memory.read] using hr c'.1
  | cons c m ih =>
    cases m' with
    | nil => simpa [Memory.read] using hr c.1
    | cons c' m' =>
      obtain ⟨a, v⟩ := c
      obtain ⟨a', v'⟩ := c'
      obtain ⟨-, -, ht⟩ := (Memory.wfFrom_cons ..).1 h
      obtain ⟨-, -, ht'⟩ := (Memory.wfFrom_cons ..).1 h'
      have hm {b : Nat} (hb : b ≤ a) : Memory.read m b = none := Memory.read_of_wfFrom ht (Nat.lt_succ_of_le hb)
      have hm' {b : Nat} (hb : b ≤ a') : Memory.read m' b = none := Memory.read_of_wfFrom ht' (Nat.lt_succ_of_le hb)
      -- the first address is the least known one
      have ha : a = a' := by
        rcases Nat.lt_trichotomy a a' with hlt | heq | hlt
        · simpa [hlt.ne', hm' hlt.le] using hr a
        · exact heq
        · simpa [hlt.ne', hm hlt.le] using hr a'
      subst ha
      obtain rfl : v = v' := by simpa using hr a
      rw [ih ht ht' fun b => ?_]
      rcases Nat.lt_or_ge a b with hb | hb
      · simpa [hb.ne] using hr b
      · rw [hm hb, hm' hb]

/-- Settles O49, by comparing the images entry by entry. -/
theorem canonicalImageIsDeterminedByReads : Obligations.CanonicalImageIsDeterminedByReads :=
  fun _ _ h h' hr => Memory.eq_of_read_eq h h' hr

theorem highByte_append_lowByte (v : Half) : highByte v ++ lowByte v = v := by
  apply BitVec.eq_of_getLsbD_eq
  intro i hi
  simp [highByte, lowByte]
  grind

/-- After these events, all answered done, the OFF pair of the channel holds the count of the angle. -/
theorem read_writeAll_servoTrace (c : Config) (d : Bool) {ch : Nat} (hch : ch ≤ 15) (angle : Int) (m : Memory) :
    (writeAll (servoTrace c d ch angle) m).read (offLowReg ch).toNat = some (lowByte (off16 angle)) ∧
    (writeAll (servoTrace c d ch angle) m).read (offHighReg ch).toNat = some (highByte (off16 angle)) := by
  have hne : (offLowReg ch).toNat ≠ (offHighReg ch).toNat := by
    rw [offLowReg_toNat hch, offHighReg_toNat hch]
    omega
  have hhold (m : Memory) : writeAll (if c.postWriteDelayEn then [.d c.delayMs] else []) m = m := by
    split <;> rfl
  simp [servoTrace, pairTrace_eq, writeAll_append, hhold, writeAll, hne]

/-- Settles O40: the OFF pair is written after the lazy init, and only a delay comes after it. -/
theorem servoLeavesCountInImage : Obligations.ServoLeavesCountInImage := by
  intro s ch angle e hch hs
  obtain ⟨hlow, hhigh⟩ := read_writeAll_servoTrace s.cfg s.initDone hch angle s.image
  rw [offLowReg, channelReg_toNat hch (by decide)] at hlow
  rw [offHighReg, channelReg_toNat hch (by decide)] at hhigh
  rw [exec_servo_valid hch, perform_served (by simpa using hs)]
  exact ⟨_, lowByte (off16 angle), highByte (off16 angle), rfl, by simpa [offLOfs] using hlow, by simpa [offHOfs] using hhigh,
    highByte_append_lowByte _⟩

end Sys2Proof.Machine
end

section
/-! ### Legal events and responses (20_memory.md R44; 30_encoding.md R63; 60_exceptions.md R140) -/

namespace Sys2Proof.Machine

/-- 20_memory.md R44, as a condition on an address. -/
theorem mem_writableRegs {a : Nat} :
    a ∈ writableRegs ↔ a ∈ [0x00, 0xFA, 0xFB, 0xFC, 0xFD, 0xFE] ∨ ∃ ch ≤ 15, a = 0x0A + 4 * ch ∨ a = 0x0B + 4 * ch := by
  simp only [writableRegs, List.mem_append, List.mem_flatMap, List.mem_range, List.mem_cons, List.not_mem_nil, or_false,
    Nat.lt_succ_iff]
  exact or_right_comm

theorem initTrace_legal (c : Config) : ∀ e ∈ initTrace c, e.legal c := by
  cases h : c.softResetEn <;> cases h' : c.wakeSettleEn <;> simp [initTrace, h, h', Event.legal, mem_writableRegs]

theorem pairTrace_legal (c : Config) {ch : Nat} (hch : ch ≤ 15) (angle : Int) : ∀ e ∈ pairTrace ch angle, e.legal c := by
  rw [pairTrace_eq]
  simp only [List.forall_mem_cons, Event.legal, mem_writableRegs, offLowReg_toNat hch, offHighReg_toNat hch]
  exact ⟨.inr ⟨ch, hch, .inl rfl⟩, .inr ⟨ch, hch, .inr rfl⟩, by simp⟩

theorem servoTrace_legal (c : Config) (d : Bool) {ch : Nat} (hch : ch ≤ 15) (angle : Int) :
    ∀ e ∈ servoTrace c d ch angle, e.legal c := by
  simp only [servoTrace, List.forall_mem_append]
  refine ⟨⟨?_, pairTrace_legal c hch angle⟩, ?_⟩
  · cases d
    · exact initTrace_legal c
    · simp
  · split <;> simp [Event.legal]

theorem CommandOps.legal {c : Config} {ops : List Op} (h : CommandOps c ops) : ∀ e ∈ opsEvents ops, e.legal c := by
  rcases h with rfl | ⟨d, ch, angle, hch, rfl⟩
  · simpa using initTrace_legal c
  · simpa using servoTrace_legal c d hch angle

/-! #### Response words -/

/-- What INFO and OFF16 may be beside a status (60_exceptions.md R140). -/
def Status.Allows (info : Byte) (o : Half) : Status → Prop
  | .ok => info = 0
  | .invalidChannel => 15 < info.toNat ∧ o = 0
  | .transportError => info.toNat ∈ writableRegs ∧ o = 0
  | .illegalCommand => info = 0 ∧ o = 0

/-! A response word is laid out as a command word is, with STATUS in the place of OP, INFO in that of CH and OFF16 in that of ANGLE
(30_encoding.md R60, R63), so its fields are read back by the same lemmas. -/

section
variable (st : Status) (info : Byte) (o : Half)

@[simp] theorem statusField_responseWord : statusField (responseWord st info o) = st.code.toNat :=
  congrArg BitVec.toNat (opField_commandWord st.code info o)

@[simp] theorem zeroBits_responseWord : (responseWord st info o).extractLsb' 24 4 = 0#4 := rsvField_commandWord st.code info o

@[simp] theorem infoField_responseWord : infoField (responseWord st info o) = info.toNat :=
  congrArg BitVec.toNat (chField_commandWord st.code info o)

@[simp] theorem off16Field_responseWord : off16Field (responseWord st info o) = o.toNat :=
  congrArg BitVec.toNat (angleField_commandWord st.code info o)
end

theorem legalResponse_of_allows {st : Status} {info : Byte} {o : Half} (h : st.Allows info o) :
    LegalResponse (responseWord st info o) := by
  cases st with
  | ok => constructor <;> simp [Status.code, show info = 0 from h]
  | invalidChannel =>
    obtain ⟨hinfo, rfl⟩ := h
    constructor <;> simp [Status.code, hinfo]
  | transportError =>
    obtain ⟨hinfo, rfl⟩ := h
    constructor <;> simp [Status.code, hinfo]
  | illegalCommand =>
    obtain ⟨rfl, rfl⟩ := h
    constructor <;> simp [Status.code]

/-- The channel of a decoded SERVO is the CH field, one byte (30_encoding.md R61). -/
theorem channel_le_of_decode {cmd : Word} {ch : Nat} {angle : Int} (h : decode cmd = .ok (.servo ch angle)) : ch ≤ 255 := by
  unfold decode at h
  split_ifs at h <;> cases h
  exact Nat.le_of_lt_succ (chField cmd).isLt

end Sys2Proof.Machine
end

section
/-! ### Commands that wait (20_memory.md R47, 41_servo_write.md R108, 70_reset_and_hazards.md R170) -/

namespace Sys2Proof.Machine

/-- Steps that are neither all served nor stopped by a failed write have come to wait for the event emitted last. -/
theorem perform_waits {ops : List Op} {s : State} (hlegal : ∀ e ∈ opsEvents ops, e.legal s.cfg)
    (hserve : Env.serve (opsEvents ops) s.env = none) (hfail : firstFailure (opsEvents ops) s.env = none) :
    ∃ b before, (perform ops s).busy = some b ∧ (perform ops s).env.serves b.wait = false ∧
      (perform ops s).responses = s.responses ∧ (perform ops s).trace = before ++ [b.wait.event s.cfg] := by
  have hc := perform_cases ops s
  generalize perform ops s = t at hc
  cases hc with
  | completed e served => simp [served] at hserve
  | failed done r v rest e e' split served answer =>
    subst split
    simp [opsEvents, Op.events, firstFailure_append served, firstFailure, answer] at hfail
  | waitAnswer done r v rest e split served answer =>
    exact ⟨⟨.answer r v, rest⟩, _, rfl, by simp [Env.serves, answer], rfl, rfl⟩
  | waitReturn done ms rest e split served noReturn =>
    subst split
    obtain rfl : ms = s.cfg.delayMs := hlegal (.d ms) (by simp [opsEvents, Op.events])
    exact ⟨⟨.delayReturn, rest⟩, _, rfl, by simp [Env.serves, noReturn], rfl, rfl⟩

/-- A SERVO whose post-write delay does not return has done everything else and waits for it. -/
theorem servo_waits_for_postWriteDelay {s : State} {ch : Nat} {angle : Int} {e : Env} (hch : ch ≤ 15)
    (hdelay : s.cfg.postWriteDelayEn = true)
    (hserve : Env.serve (initCommandTrace s.cfg s.initDone ++ pairTrace ch angle) s.env = some e) (hreturn : e.takeReturn = none) :
    exec (.servo ch angle) s =
      .next (((s.ran (lazyInit s.cfg s.initDone ++ formPair (offLowReg ch) (off16 angle)) e).emitDelay s.cfg.delayMs).waitAt
        ⟨.delayReturn, []⟩) := by
  rw [exec_servo_valid hch, servoOps, hdelay, perform_append (e := e), holdIf, if_pos rfl, perform_delay_wait hreturn]
  simpa [opsEvents_formPair, ← pairTrace_eq] using hserve

/-- Settles O39: of the cases of performing a command's steps only the waits are left; an INIT that waits has not served its whole
sequence, so INIT_DONE is 0. -/
theorem commandsWaitUntilServed : Obligations.CommandsWaitUntilServed := by
  refine ⟨fun s ch angle hch hserve hfail => ?_, fun s hd hserve hfail => ?_, fun s ch angle e hch hdelay hserve hreturn => ?_⟩
  · rw [← opsEvents_servoOps] at hserve hfail ⊢
    obtain ⟨b, before, hb, hs, hr, ht⟩ := perform_waits (by simpa using servoTrace_legal s.cfg s.initDone hch angle) hserve hfail
    exact ⟨_, b, before, exec_servo_valid hch angle s, hb, hs, hr, perform_trace _ s, ht⟩
  · have hexec : exec .init s = .next (perform (initSequence s.cfg) s) := by rw [exec_init, hd]; rfl
    have hiff := (initDoneExactlyAfterWholeSequence s _ hd (.inl hexec)).1
    rw [hserve] at hiff
    rw [← opsEvents_initSequence] at hserve hfail ⊢
    obtain ⟨b, before, hb, hs, hr, ht⟩ := perform_waits (by simpa using initTrace_legal s.cfg) hserve hfail
    exact ⟨_, b, before, hexec, hb, hs, hr, by simpa using hiff, perform_trace _ s, ht⟩
  · refine ⟨_, servo_waits_for_postWriteDelay hch hdelay hserve hreturn, rfl, rfl, rfl, ?_, ?_⟩
    · cases h : s.initDone <;> simp [h]
    · simp [servoTrace, hdelay, opsEvents_formPair, ← pairTrace_eq, initCommandTrace]

end Sys2Proof.Machine
end

section
/-! ### The invariant of the machine (20_memory.md R44, R55; 30_encoding.md R63; 10_state.md R26; log entries 7 and 8) -/

namespace Sys2Proof.Machine

/-! #### The fold of a trace -/

/-- Events whose writes all have their fates are folded before the events and fates after them. -/
theorem imageOf_append {es : List Event} {fs : List Fate} (h : writeCount es = fs.length) (es' : List Event) (fs' : List Fate)
    (m : Memory) : imageOf (es ++ es') (fs ++ fs') m = imageOf es' fs' (imageOf es fs m) := by
  induction es generalizing fs m with
  | nil => cases List.eq_nil_of_length_eq_zero h.symm; rfl
  | cons e es ih =>
    cases e with
    | d ms => exact ih h m
    | w r v =>
      cases fs with
      | nil => simp [writeCount] at h
      | cons f fs =>
        have hlen : writeCount es = fs.length := Nat.succ_inj.1 h
        rcases f with (_ | _) | _ <;> exact ih hlen _

/-- Events all of whose writes were answered done are folded as `writeAll` writes them. -/
theorem imageOf_allDone (es : List Event) (m : Memory) :
    imageOf es (List.replicate (writeCount es) (.answered .done)) m = writeAll es m := by
  induction es generalizing m with
  | nil => rfl
  | cons e es ih => cases e <;> exact ih _

theorem wf_imageOf (es : List Event) (fs : List Fate) {m : Memory} (h : m.wf = true) : Memory.wf (imageOf es fs m) = true := by
  induction es generalizing fs m with
  | nil => exact h
  | cons e es ih =>
    cases e with
    | d ms => exact ih fs h
    | w r v =>
      rcases fs with _ | ⟨(_ | _) | _, fs⟩
      · exact ih [] h
      · exact ih fs (Memory.wf_write h r v)
      · exact ih fs (Memory.wf_forget h r.toNat)
      · exact ih fs (Memory.wf_forget h r.toNat)

/-! #### What keeps the invariant -/

namespace MachineInv
variable {s t : State}

/-- The invariant does not speak of the inputs of A2P. -/
theorem inputs (h : MachineInv s) (commands : List Word) (resetLine : List ResetInput) (env : Env) (envLine : List Env) :
    MachineInv { s with commands := commands, resetLine := resetLine, env := env, envLine := envLine } := by
  obtain ⟨canonical, fold, fates, events, responses, position⟩ := h
  refine ⟨canonical, fold, fates, events, responses, fun b hb => ?_⟩
  obtain ⟨last, inCommand, pending⟩ := position b hb
  exact ⟨last, inCommand, pending⟩

/-- Legal outputs keep the invariant where the image is still the fold of the trace and each write has its fate. -/
theorem grow {es : List Event} {fs : List Fate} {rs : List Word} (h : MachineInv s) (adds : Adds s t es fs rs)
    (fold : t.image = imageOf t.trace t.fates []) (fates : writeCount t.trace = t.fates.length + unanswered t.busy)
    (events : ∀ e ∈ es, e.legal s.cfg) (responses : ∀ r ∈ rs, LegalResponse r)
    (position : ∀ b, t.busy = some b → Position t b) : MachineInv t := by
  refine ⟨?_, fold, fates, ?_, ?_, position⟩
  · rw [fold]
    exact wf_imageOf _ _ rfl
  · rw [adds.trace, adds.cfg, List.forall_mem_append]
    exact ⟨h.eventsLegal, events⟩
  · rw [adds.responses, List.forall_mem_append]
    exact ⟨h.responsesLegal, responses⟩

/-- From an idle state, legal events with their fates and their effect on the image keep the invariant. -/
theorem emit {es : List Event} {fs : List Fate} (h : MachineInv s) (hidle : s.busy = none) (adds : Adds s t es fs [])
    (image : t.image = imageOf es fs s.image) (fates : writeCount es = fs.length + unanswered t.busy)
    (events : ∀ e ∈ es, e.legal s.cfg) (position : ∀ b, t.busy = some b → Position t b) : MachineInv t := by
  have hfates : writeCount s.trace = s.fates.length := by simpa [hidle, unanswered] using h.fatesMatch
  refine h.grow adds ?_ ?_ events (by simp) position
  · rw [adds.trace, adds.fates, imageOf_append hfates, ← h.imageIsFold, image]
  · rw [adds.trace, adds.fates, writeCount_append, List.length_append, hfates, fates, Nat.add_assoc]

/-- Once the write a command waits for has its fate, with its effect on the image, the invariant holds of the idle state. -/
theorem settle {r v : Byte} {rest : List Op} (h : MachineInv s) (hb : s.busy = some ⟨.answer r v, rest⟩) (f : Fate)
    (adds : Adds s t [] [f] []) (image : t.image = imageOf [.w r v] [f] s.image) (hidle : t.busy = none) : MachineInv t := by
  obtain ⟨before, hlast⟩ := (h.position _ hb).lastEvent
  have hbefore : s.trace = before ++ [.w r v] := hlast
  have hfates : writeCount before = s.fates.length := by
    simpa [hbefore, hb, unanswered, writeCount] using h.fatesMatch
  have hbase : s.image = imageOf before s.fates [] := by
    have := imageOf_append hfates [.w r v] [] []
    rwa [List.append_nil, ← hbefore, ← h.imageIsFold] at this
  refine h.grow adds ?_ ?_ (by simp) (by simp) (by simp [hidle])
  · rw [adds.trace, adds.fates, List.append_nil, hbefore, imageOf_append hfates, ← hbase, image]
  · simp [adds.trace, adds.fates, hbefore, hfates, hidle, unanswered, writeCount]

/-- Where no write is unanswered, the invariant holds as well of the idle state. -/
theorem stop (h : MachineInv s) (hu : unanswered s.busy = 0) (adds : Adds s t [] [] []) (image : t.image = s.image)
    (hidle : t.busy = none) : MachineInv t := by
  have htrace : t.trace = s.trace := by simpa using adds.trace
  have hfates : t.fates = s.fates := by simpa using adds.fates
  refine h.grow adds ?_ ?_ (by simp) (by simp) (by simp [hidle])
  · rw [image, htrace, hfates, h.imageIsFold]
  · rw [htrace, hfates, h.fatesMatch, hu, hidle, unanswered]

/-- A legal response keeps the invariant. -/
theorem respond (h : MachineInv s) {st : Status} {info : Byte} {o : Half} (ho : st.Allows info o) :
    MachineInv (s.respond st info o) := by
  refine h.grow (es := []) (fs := []) (rs := [_]) ⟨rfl, by simp, by simp, rfl⟩ h.imageIsFold h.fatesMatch (by simp)
    (by simpa using legalResponse_of_allows ho) fun b hb => ?_
  obtain ⟨last, inCommand, pending⟩ := h.position b hb
  exact ⟨last, inCommand, pending⟩

/-- Reset asserted keeps the invariant: a write still waited for is abandoned and its register unknown. -/
theorem holdReset (h : MachineInv s) : MachineInv s.holdReset := by
  match hb : s.busy with
  | none | some ⟨.delayReturn, _⟩ =>
    exact h.stop (by rw [hb]; rfl) (.of_eq rfl rfl (by simp [hb, abandonedFates]) rfl) (by simp [hb, abandonedImage]) rfl
  | some ⟨.answer r v, rest⟩ =>
    exact h.settle hb .abandoned ⟨rfl, by simp, by simp [hb, abandonedFates], by simp⟩ (by simp [hb, abandonedImage, imageOf]) rfl

end MachineInv

/-! #### The steps of a command -/

/-- No command sets INIT_DONE twice. -/
theorem CommandOps.count_setInitDone {c : Config} {ops : List Op} (h : CommandOps c ops) : ops.count .setInitDone ≤ 1 := by
  have hinit : (initSequence c).count .setInitDone ≤ 1 := by
    obtain ⟨ops, hseq, hops, -⟩ := initSequence_eq c
    rw [hseq, List.count_append, List.count_eq_zero.2 hops]
    decide
  rcases h with rfl | ⟨d, ch, angle, -, rfl⟩
  · exact hinit
  · have hrest : (formPair (offLowReg ch) (off16 angle) ++ holdIf c.postWriteDelayEn c).count .setInitDone = 0 := by
      cases c.postWriteDelayEn <;> simp [formPair, holdIf]
    rw [servoOps, List.append_assoc, List.count_append, hrest]
    cases d
    · exact hinit
    · exact Nat.zero_le 1

/-- In `s`, between two events of a command, the steps `ops` are left of it. -/
structure Underway (s : State) (ops : List Op) : Prop where
  inv : MachineInv s
  idle : s.busy = none
  inCommand : ∃ all, CommandOps s.cfg all ∧ ops <:+ all
  initPending : s.initDone = false ↔ Op.setInitDone ∈ ops

namespace Underway
variable {s : State} {ops done rest : List Op} {op : Op} {r v : Byte} {ms : Word} {e : Env}

/-- The steps left have legal events. -/
theorem legal (h : Underway s ops) : ∀ ev ∈ opsEvents ops, ev.legal s.cfg := by
  obtain ⟨all, hall, before, rfl⟩ := h.inCommand
  have := hall.legal
  rw [opsEvents_append, List.forall_mem_append] at this
  exact this.2

/-- Served steps leave the rest of the command to be performed. -/
theorem ran (h : Underway s (done ++ rest)) (e : Env) : Underway (s.ran done e) rest where
  inv := by
    have := h.legal
    rw [opsEvents_append, List.forall_mem_append] at this
    refine h.inv.emit h.idle ⟨rfl, rfl, rfl, by simp⟩ (imageOf_allDone _ _).symm ?_ this.1 (by simp [h.idle])
    simp [h.idle, unanswered]
  idle := h.idle
  inCommand := by
    obtain ⟨all, hall, hsuffix⟩ := h.inCommand
    exact ⟨all, hall, (List.suffix_append done rest).trans hsuffix⟩
  initPending := by
    have honce : ¬(Op.setInitDone ∈ done ∧ Op.setInitDone ∈ rest) := by
      obtain ⟨all, hall, hsuffix⟩ := h.inCommand
      have := hsuffix.sublist.count_le (a := Op.setInitDone)
      have := hall.count_setInitDone
      simp only [List.count_append, ← List.count_pos_iff] at *
      omega
    have := h.initPending
    simp only [State.ran_initDone, Bool.or_eq_false_iff, decide_eq_false_iff_not, List.mem_append] at *
    tauto

/-- The position of a command that has come to wait. -/
theorem position {t : State} {b : Busy} (h : Underway s (b.wait.op s.cfg :: b.rest)) (hcfg : t.cfg = s.cfg)
    (hinit : t.initDone = s.initDone) (htrace : t.trace = s.trace ++ [b.wait.event s.cfg]) : Position t b where
  lastEvent := ⟨s.trace, by rw [htrace, hcfg]⟩
  inCommand := by rw [hcfg]; exact h.inCommand
  initPending := by
    rw [hinit, h.initPending]
    rcases b with ⟨_ | _, rest⟩ <;> simp [Wait.op]

/-- A write not answered: the command waits, with that write without a fate. -/
theorem waitAnswer (h : Underway s (.memWrite r v :: rest)) : MachineInv ((s.emitWrite r v).waitAt ⟨.answer r v, rest⟩) := by
  refine h.inv.emit h.idle (es := [.w r v]) (fs := []) ⟨rfl, rfl, by simp, by simp⟩ rfl rfl ?_ ?_
  · simpa using h.legal (.w r v) (by simp [opsEvents, Op.events])
  · rintro _ ⟨⟩
    exact position (b := ⟨.answer r v, rest⟩) h rfl rfl rfl

/-- A delay that does not return: the command waits. -/
theorem waitReturn (h : Underway s (.delay ms :: rest)) : MachineInv ((s.emitDelay ms).waitAt ⟨.delayReturn, rest⟩) := by
  obtain rfl : ms = s.cfg.delayMs := h.legal (.d ms) (by simp [opsEvents, Op.events])
  refine h.inv.emit h.idle (es := [.d _]) (fs := []) ⟨rfl, rfl, by simp, by simp⟩ rfl rfl (by simp [Event.legal]) ?_
  rintro _ ⟨⟩
  exact position (b := ⟨.delayReturn, rest⟩) h rfl rfl rfl

/-- A write answered failed, before its response, whose INFO is then a register of R44. -/
theorem failed (h : Underway s (.memWrite r v :: rest)) (e : Env) :
    MachineInv (((s.emitWrite r v).withEnv e).writeFailed r) ∧ r.toNat ∈ writableRegs := by
  have hlegal := h.legal (.w r v) (by simp [opsEvents, Op.events])
  refine ⟨?_, hlegal⟩
  exact h.inv.emit h.idle (es := [.w r v]) (fs := [.answered .failed]) ⟨rfl, rfl, rfl, by simp⟩ rfl
    (by simp [h.idle, unanswered, writeCount]) (by simpa using hlegal) (by simp [h.idle])

/-- Performing what is left of a command keeps the invariant. -/
theorem perform (h : Underway s ops) : MachineInv (perform ops s) := by
  have hc := perform_cases ops s
  generalize Machine.perform ops s = t at hc
  cases hc with
  | completed e _ => exact (ran (rest := []) (by simpa using h) e).inv.respond rfl
  | failed done r v rest e e' split _ _ =>
    obtain ⟨hinv, hr⟩ := ((split ▸ h).ran e).failed e'
    exact hinv.respond ⟨hr, rfl⟩
  | waitAnswer done r v rest e split _ _ => exact ((split ▸ h).ran e).waitAnswer
  | waitReturn done ms rest e split _ _ => exact ((split ▸ h).ran e).waitReturn

/-- So does performing it until reset is asserted. -/
theorem cutOff {t : State} (h : Underway s ops) (hc : CutOff s ops t) : MachineInv t := by
  cases hc with
  | whole => exact h.perform
  | between done rest e split _ => exact ((split ▸ h).ran e).inv
  | unanswered done r v rest e split _ => exact ((split ▸ h).ran e).waitAnswer
  | unreturned done ms rest e split _ => exact ((split ▸ h).ran e).waitReturn
  | failed done r v rest e e' split _ _ => exact (((split ▸ h).ran e).failed e').1

end Underway

/-! #### The step -/

/-- The steps of an accepted command are those of some command of the configuration, or none. -/
theorem StepsOf.inCommand {s : State} {i : Instr} {ops : List Op} (h : StepsOf s i ops) :
    ∃ all, CommandOps s.cfg all ∧ ops <:+ all := by
  rcases h with ⟨-, rfl⟩ | ⟨ch, angle, hch, -, rfl⟩
  · refine ⟨_, .inl rfl, ?_⟩
    cases s.initDone
    · exact List.suffix_refl _
    · exact List.nil_suffix
  · exact ⟨_, .inr ⟨_, ch, angle, hch, rfl⟩, List.suffix_refl _⟩

theorem StepsOf.initPending {s : State} {i : Instr} {ops : List Op} (h : StepsOf s i ops) :
    s.initDone = false ↔ Op.setInitDone ∈ ops := by
  rcases h with ⟨-, rfl⟩ | ⟨ch, angle, -, -, rfl⟩ <;> simp

namespace MachineInv
variable {s t : State}

/-- When what a command waits for has come, its steps left can be performed from the idle state. -/
theorem resumed {b : Busy} (h : MachineInv s) (hb : s.busy = some b) (ht : MachineInv t) (hidle : t.busy = none)
    (hcfg : t.cfg = s.cfg) (hinit : t.initDone = s.initDone) : Underway t b.rest where
  inv := ht
  idle := hidle
  inCommand := by
    obtain ⟨all, hall, hsuffix⟩ := (h.position b hb).inCommand
    exact ⟨all, by rwa [hcfg], (List.suffix_cons _ _).trans hsuffix⟩
  initPending := by rw [hinit]; exact (h.position b hb).initPending

theorem takeCommand (h : MachineInv s) : MachineInv s.takeCommand := h.inputs ..

theorem tick (h : MachineInv s) : MachineInv s.tick := h.inputs ..

/-- The steps performed in a step of A2P are what is left of a command. -/
theorem underway {base : State} {ops : List Op} (h : MachineInv s) (hp : Performing s base ops) : Underway base ops := by
  cases hp with
  | accepted hb cmd rest hc i hd ops steps => exact ⟨h.takeCommand, hb, steps.inCommand, steps.initPending⟩
  | answered r v rest e hb ha =>
    exact h.resumed hb (h.settle hb (.answered .done) ⟨rfl, by simp, rfl, by simp⟩ rfl rfl) rfl rfl rfl
  | returned rest e hb ha =>
    exact h.resumed hb (h.stop (by rw [hb]; rfl) (.of_eq rfl rfl rfl rfl) rfl rfl) rfl rfl rfl

/-- A failed answer to the write a command waits for, before its response, whose INFO is then a register of R44. -/
theorem waitFailed {r v : Byte} {rest : List Op} (h : MachineInv s) (hb : s.busy = some ⟨.answer r v, rest⟩) (e : Env) :
    MachineInv ((s.idle.withEnv e).writeFailed r) ∧ r.toNat ∈ writableRegs := by
  obtain ⟨before, hlast⟩ := (h.position _ hb).lastEvent
  refine ⟨h.settle hb (.answered .failed) ⟨rfl, by simp, rfl, by simp⟩ rfl rfl, ?_⟩
  exact h.eventsLegal (.w r v) (by rw [hlast]; exact List.mem_append_right _ List.mem_cons_self)

/-- What A2P can do in a step with reset released. -/
theorem acted (h : MachineInv s) (ht : Acted s t) : MachineInv t := by
  cases ht with
  | idle | waits => exact h
  | illegal hb cmd rest hc e hd => exact h.takeCommand.respond ⟨rfl, rfl⟩
  | command hb cmd rest hc i hd _ ht =>
    cases exec_cases ht with
    | converted angle _ => exact h.takeCommand.respond rfl
    | rejected ch angle isServo invalid =>
      subst isServo
      have := channel_le_of_decode hd
      exact h.takeCommand.respond ⟨by simp [Exception.info]; omega, rfl⟩
    | performed ops steps => exact (h.underway (.accepted hb cmd rest hc i hd ops steps)).perform
  | answered r v rest e hb ha => exact (h.underway (.answered r v rest e hb ha)).perform
  | failed r v rest e hb ha =>
    obtain ⟨hinv, hr⟩ := h.waitFailed hb e
    exact hinv.respond ⟨hr, rfl⟩
  | returned rest e hb ha => exact (h.underway (.returned rest e hb ha)).perform

/-- What A2P can come to before a reset ends the step. -/
theorem actedUntil (h : MachineInv s) (ht : ActedUntil s t) : MachineInv t := by
  cases ht with
  | whole => exact h.acted (act_whole_cases s)
  | stays => exact h
  | accepts => exact h.takeCommand
  | cut base ops hp _ ht => exact (h.underway hp).cutOff ht
  | failed r v rest e hb ha => exact (h.waitFailed hb e).1

end MachineInv

/-- Settles O50: by the cases of a step, each of which makes moves that keep the invariant. -/
theorem stepKeepsMachineInvariant : Obligations.StepKeepsMachineInvariant := by
  intro s t h hs
  cases step_cases hs with
  | released _ _ ht => exact h.tick.acted ht
  | inReset => exact h.tick.holdReset
  | cutOff n _ u hu => exact (h.tick.actedUntil hu).holdReset

end Sys2Proof.Machine
end

section
/-! ### The registers ever written (20_memory.md R44) -/

namespace Sys2Proof.Machine

/-- What every step keeps holds at the end of a run. -/
theorem run_induction {P : State → Prop} (hstep : ∀ s t, P s → step s = .next t → P t) {n : Nat} {s t : State} (h : P s)
    (ht : Host.Core.run Sys2Proof.core n s = .next t) : P t := by
  induction n generalizing s with
  | zero => cases ht; exact h
  | succ n ih =>
    obtain ⟨u, hu⟩ := step_next s
    rw [run_step hu] at ht
    exact ih (hstep s u h hu) ht

theorem machineInv_resetWith (c : Config) : MachineInv (State.resetWith c) where
  imageCanonical := rfl
  imageIsFold := rfl
  fatesMatch := rfl
  eventsLegal := by simp
  responsesLegal := by simp
  position := by simp

/-- Every register of R44 is one of the init sequence's or of some channel's OFF pair, so some first SERVO writes it. -/
theorem exists_servoTrace_writes (c : Config) {r : Byte} (h : r.toNat ∈ writableRegs) :
    ∃ ch ≤ 15, ∃ v, Event.w r v ∈ servoTrace c false ch 0 := by
  rcases mem_writableRegs.1 h with hinit | ⟨ch, hch, hr | hr⟩
  · have hr : r ∈ [0x00, 0xFA, 0xFB, 0xFC, 0xFD, 0xFE] := by simpa [← BitVec.toNat_inj] using hinit
    obtain ⟨v, hv⟩ : ∃ v, Event.w r v ∈ initTrace c := by
      simp only [List.mem_cons, List.not_mem_nil, or_false] at hr
      rcases hr with rfl | rfl | rfl | rfl | rfl | rfl <;> simp [initTrace, exists_or]
    exact ⟨0, by decide, v, by simp [servoTrace, hv]⟩
  · obtain rfl : r = offLowReg ch := BitVec.eq_of_toNat_eq (by rw [hr, offLowReg_toNat hch])
    exact ⟨ch, hch, lowByte (off16 0), by simp [servoTrace, pairTrace_eq]⟩
  · obtain rfl : r = offHighReg ch := BitVec.eq_of_toNat_eq (by rw [hr, offHighReg_toNat hch])
    exact ⟨ch, hch, highByte (off16 0), by simp [servoTrace, pairTrace_eq]⟩

/-- Right after reset, with a SERVO as the host's only command word. -/
def firstServo (c : Config) (ch : Nat) : State :=
  { State.resetWith c with commands := [encode (.servo ch 0)], resetLine := [], envLine := [] }

/-- In the environment of reset, which serves it, that SERVO emits its whole trace in one step. -/
theorem step_firstServo (c : Config) {ch : Nat} (hch : ch ≤ 15) :
    ∃ t, step (firstServo c ch) = .next t ∧ t.trace = servoTrace c false ch 0 := by
  have hd : decode (encode (.servo ch 0)) = .ok (.servo ch 0) := by
    have hfits : channelFits ch = true := decide_eq_true (by omega)
    simp [decode, encode, zext8_ofNat hfits, sext16]
  have hdone : (firstServo c ch).tick.takeCommand.env.allDone := ⟨fun _ h => absurd h List.not_mem_nil, rfl, rfl⟩
  refine ⟨_, by rw [step_command rfl rfl rfl, acceptWord_ok hd, exec_servo_valid hch], ?_⟩
  rw [perform_trace, opsEvents_servoOps]
  change emitted (servoTrace c false ch 0) _ = _
  simpa [emitted] using emitted_append (hdone.serve_eq (servoTrace c false ch 0)) []

/-- Settles O52: only those by the invariant, and each of them by the run of one SERVO. -/
theorem writtenRegistersAreExactlyR44 : Obligations.WrittenRegistersAreExactlyR44 := by
  refine ⟨by decide, by decide, fun r => ⟨?_, fun hr => ?_⟩⟩
  · rintro ⟨c, commands, resetLine, envLine, n, t, v, hrun, hw⟩
    have hinv : MachineInv t := run_induction stepKeepsMachineInvariant ((machineInv_resetWith c).inputs ..) hrun
    exact hinv.eventsLegal _ hw
  · obtain ⟨ch, hch, v, hv⟩ := exists_servoTrace_writes (Config.defaults 0) hr
    obtain ⟨t, hstep, ht⟩ := step_firstServo (Config.defaults 0) hch
    exact ⟨_, _, _, _, 1, t, v, run_step hstep 0, ht ▸ hv⟩

end Sys2Proof.Machine
end

section
/-! ### Decoding and encoding (30_encoding.md R60 to R66) -/

namespace Sys2Proof

section
variable {cmd : Word} {i : Instr}

/-- What the decoder reads, by the fields of the word: one case per row of the opcode map (30_encoding.md R62). -/
theorem decode_eq_ok_iff : decode cmd = .ok i ↔
    (opField cmd = 1 ∧ rsvField cmd = 0 ∧ chField cmd = 0 ∧ i = .conv (sext16 (angleField cmd))) ∨
    (opField cmd = 2 ∧ rsvField cmd = 0 ∧ i = .servo (zext8 (chField cmd)) (sext16 (angleField cmd))) ∨
    (opField cmd = 3 ∧ rsvField cmd = 0 ∧ chField cmd = 0 ∧ angleField cmd = 0 ∧ i = .init) := by
  unfold decode
  split_ifs <;> simp_all [eq_comm (a := i)]

/-- A word is rejected exactly if its fields are those of no row. -/
theorem decode_eq_error_iff : (∃ e, decode cmd = .error e) ↔
    ¬(opField cmd = 1 ∧ rsvField cmd = 0 ∧ chField cmd = 0) ∧ ¬(opField cmd = 2 ∧ rsvField cmd = 0) ∧
      ¬(opField cmd = 3 ∧ rsvField cmd = 0 ∧ chField cmd = 0 ∧ angleField cmd = 0) := by
  have herror : (∃ e, decode cmd = .error e) ↔ ¬∃ i, decode cmd = .ok i := by cases decode cmd <;> simp
  simp only [herror, decode_eq_ok_iff, exists_or, exists_and_left, exists_eq, and_true, not_or]
end

/-- Settles O5: the fields of the encoded word are the encoded operands, and operands that fit are read back from them. -/
theorem decodeOfEncode : Obligations.DecodeOfEncode := by
  intro i h
  rw [decode_eq_ok_iff]
  cases i with
  | conv angle => exact .inl (by simp [encode, sext16_ofInt h])
  | servo ch angle =>
    obtain ⟨hch, hangle⟩ := Bool.and_eq_true_iff.1 h
    exact .inr (.inl (by simp [encode, zext8_ofNat hch, sext16_ofInt hangle]))
  | init => exact .inr (.inr (by simp [encode]))

/-- Settles O6: in each row the operands read fit their fields, and encoded again they are the fields of the word. -/
theorem encodeOfDecode : Obligations.EncodeOfDecode := by
  intro cmd i h
  have fields : rsvField cmd = 0 → commandWord (opField cmd) (chField cmd) (angleField cmd) = cmd := commandWord_fields cmd
  rcases decode_eq_ok_iff.1 h with ⟨hop, hrsv, hch, rfl⟩ | ⟨hop, hrsv, rfl⟩ | ⟨hop, hrsv, hch, hangle, rfl⟩
  · exact ⟨angleFits_sext16 _, by simpa [encode, ofInt_sext16, hop, hch] using fields hrsv⟩
  · exact ⟨by simp [Instr.wellFormed, channelFits_zext8, angleFits_sext16],
      by simpa [encode, ofInt_sext16, ofNat_zext8, hop] using fields hrsv⟩
  · exact ⟨rfl, by simpa [encode, hop, hch, hangle] using fields hrsv⟩

/-! #### The rows of the opcode map by mask and match (30_encoding.md R62) -/

section
variable (cmd : Word)

theorem convRow_iff : cmd &&& 0xFFFF0000#32 = 0x10000000#32 ↔ opField cmd = 1 ∧ rsvField cmd = 0 ∧ chField cmd = 0 := by
  rw [← BitVec.toNat_inj, and_convMask]
  simp only [← BitVec.toNat_inj, opField_toNat, rsvField_toNat, chField_toNat, BitVec.ofNat_eq_ofNat, BitVec.toNat_ofNat]
  omega

theorem servoRow_iff : cmd &&& 0xFF000000#32 = 0x20000000#32 ↔ opField cmd = 2 ∧ rsvField cmd = 0 := by
  rw [← BitVec.toNat_inj, and_servoMask]
  simp only [← BitVec.toNat_inj, opField_toNat, rsvField_toNat, BitVec.ofNat_eq_ofNat, BitVec.toNat_ofNat]
  omega

theorem initRow_iff : cmd &&& 0xFFFFFFFF#32 = 0x30000000#32 ↔
    opField cmd = 3 ∧ rsvField cmd = 0 ∧ chField cmd = 0 ∧ angleField cmd = 0 := by
  rw [show cmd &&& 0xFFFFFFFF#32 = cmd from BitVec.and_allOnes]
  simp only [← BitVec.toNat_inj, opField_toNat, rsvField_toNat, chField_toNat, angleField_toNat, BitVec.ofNat_eq_ofNat,
    BitVec.toNat_ofNat]
  omega

/-- The angle operand as a number (30_encoding.md R61). -/
theorem sext16_angleField : sext16 (angleField cmd) = (cmd.setWidth 16).toInt := by
  rw [sext16_eq_toInt, angleField, BitVec.setWidth_eq_extractLsb' (by decide)]
end

/-- Settles O7: mask and match of a row say what its fields are. -/
theorem decodeSelectsRow : Obligations.DecodeSelectsRow := by
  intro cmd i
  rw [decode_eq_ok_iff, convRow_iff, servoRow_iff, initRow_iff, sext16_angleField, zext8, chField_toNat]
  simp only [and_assoc]

/-- Settles O8: the fields of no row, as arithmetic on the word. -/
theorem illegalWordsAreThoseOfR65 : Obligations.IllegalWordsAreThoseOfR65 := by
  intro cmd
  rw [decode_eq_error_iff]
  simp only [← BitVec.toNat_inj, opField_toNat, rsvField_toNat, chField_toNat, angleField_toNat, BitVec.ofNat_eq_ofNat,
    BitVec.toNat_ofNat]
  omega

/-! #### Words as numbers -/

/-- An operand's field is the operand modulo the field, with the floor modulus (30_encoding.md R66). -/
theorem toNat_ofInt_half (angle : Int) : ((BitVec.ofInt 16 angle).toNat : Int) = angle % 65536 := by
  rw [BitVec.toNat_ofInt]
  omega

/-- Settles O9: a command word is its fields as numbers, and the angle's field is the angle modulo 2^16. -/
theorem encodeIsAssemblerWord : Obligations.EncodeIsAssemblerWord := by
  refine ⟨fun angle _ _ => ?_, fun ch angle hch _ _ => ?_, by decide⟩
  · rw [encode, commandWord_toNat]
    push_cast [toNat_ofInt_half]
    simp
  · have hch' : (BitVec.ofNat 8 ch).toNat = ch := zext8_ofNat (decide_eq_true hch)
    rw [encode, commandWord_toNat, hch']
    push_cast [toNat_ofInt_half]
    simp

/-- Settles O10, by running the decoder on each word. -/
theorem decodeOfWorkedWords : Obligations.DecodeOfWorkedWords := by
  unfold Obligations.DecodeOfWorkedWords
  decide

end Sys2Proof
end

section
/-! ### Response words and transport events as numbers (30_encoding.md R63, R64) -/

namespace Sys2Proof.Machine

/-- A response word is laid out as a command word is (30_encoding.md R60, R63). -/
theorem responseWord_toNat (st : Status) (info : Byte) (o : Half) :
    (responseWord st info o).toNat = st.code.toNat * 0x10000000 + info.toNat * 0x10000 + o.toNat :=
  commandWord_toNat st.code info o

/-- Settles O11: the layout as a number, with the code of each status put in. -/
theorem responseWordLayout : Obligations.ResponseWordLayout := by
  intro info o
  simp [responseWord_toNat, Status.code]

/-- The word of the write channel as a number (30_encoding.md R64). -/
theorem writeChannelWord_toNat (r v : Byte) :
    (writeChannelWord r v).toNat = 0x6A * 0x10000 + r.toNat * 0x100 + v.toNat := by
  simp only [writeChannelWord, toNat_append_eq, devAddr, BitVec.ofNat_eq_ofNat, BitVec.toNat_ofNat]
  omega

/-- Settles O12: the write channel carries DEV_ADDR, the register and the byte as one number. -/
theorem eventChannelWords : Obligations.EventChannelWords :=
  ⟨fun r v => ⟨rfl, _, rfl, writeChannelWord_toNat r v⟩, fun _ => ⟨rfl, rfl⟩, rfl, rfl⟩

end Sys2Proof.Machine
end

section
/-! ### One response per command word (30_encoding.md R63; 60_exceptions.md R140, R145) -/

namespace Sys2Proof.Machine

/-- From `s` to `t` a command has either ended with one legal response, or is in progress and has given none. -/
def AnsweredOnce (s t : State) : Prop :=
  (t.busy = none ∧ ∃ r, LegalResponse r ∧ t.responses = s.responses ++ [r]) ∨ (t.busy ≠ none ∧ t.responses = s.responses)

section
variable {s t : State} {i : Instr} {cmd : Word}

/-- A response that 60_exceptions.md R140 allows, given by an idle A2P, is that one response. -/
theorem AnsweredOnce.respond {st : Status} {info : Byte} {o : Half} (hb : t.busy = none) (hr : t.responses = s.responses)
    (h : st.Allows info o) : AnsweredOnce s (t.respond st info o) :=
  .inl ⟨hb, _, legalResponse_of_allows h, by rw [State.respond_responses, hr]⟩

/-- The steps of a command have legal events. -/
theorem StepsOf.legal {ops : List Op} (h : StepsOf s i ops) : ∀ e ∈ opsEvents ops, e.legal s.cfg := by
  obtain ⟨all, hall, before, rfl⟩ := h.inCommand
  exact fun e he => hall.legal e (by rw [opsEvents_append]; exact List.mem_append_right _ he)

/-- Performing steps ends in OK, in TRANSPORT_ERROR with a register of 20_memory.md R44, or in a wait. -/
theorem perform_answeredOnce {ops : List Op} (hlegal : ∀ e ∈ opsEvents ops, e.legal s.cfg) (hb : s.busy = none) :
    AnsweredOnce s (perform ops s) := by
  have hc := perform_cases ops s
  generalize perform ops s = t at hc
  cases hc with
  | completed e served => exact .respond hb rfl rfl
  | failed done r v rest e e' split served answer =>
    have hr : r.toNat ∈ writableRegs := hlegal (.w r v) (by simp [split, opsEvents, Op.events])
    exact .respond hb rfl ⟨hr, rfl⟩
  | waitAnswer | waitReturn => exact .inr ⟨by simp, rfl⟩

/-- A decoded command is answered once; the channel a SERVO reports as invalid is a byte above 15. -/
theorem exec_answeredOnce (hd : decode cmd = .ok i) (hb : s.busy = none) (ht : exec i s = .next t) : AnsweredOnce s t := by
  cases exec_cases ht with
  | converted angle isConv => exact .respond hb rfl rfl
  | rejected ch angle isServo invalid =>
    have := channel_le_of_decode (isServo ▸ hd)
    exact .respond hb rfl ⟨by simp [Exception.info]; omega, rfl⟩
  | performed ops steps => exact perform_answeredOnce steps.legal hb

theorem acceptWord_answeredOnce (hb : s.busy = none) (ht : acceptWord cmd s = .next t) : AnsweredOnce s t := by
  rcases hd : decode cmd with e | i
  · rw [acceptWord_illegal hd] at ht
    cases ht
    exact .respond hb rfl ⟨rfl, rfl⟩
  · rw [acceptWord_ok hd] at ht
    exact exec_answeredOnce hd hb ht

theorem exec_commands (ht : exec i s = .next t) : t.commands = s.commands := by
  cases exec_cases ht with
  | converted | rejected => rfl
  | performed ops steps =>
    obtain ⟨-, hcommands, -⟩ := perform_frame ops s
    exact hcommands

/-- What an accepted word does takes no other word off the command port (70_reset_and_hazards.md R163). -/
theorem acceptWord_commands (ht : acceptWord cmd s = .next t) : t.commands = s.commands := by
  rcases hd : decode cmd with e | i
  · rw [acceptWord_illegal hd] at ht
    cases ht
    rfl
  · rw [acceptWord_ok hd] at ht
    exact exec_commands ht
end

/-- Settles O17: the step accepts the word, from a state with the word taken off the command port. -/
theorem oneResponsePerCommand : Obligations.OneResponsePerCommand := by
  intro s t cmd rest hr hb hc ht
  rw [step_command hr hb hc] at ht
  exact ⟨(acceptWord_commands ht).trans (by simp [hc]), acceptWord_answeredOnce (s := s.tick.takeCommand) hb ht⟩

end Sys2Proof.Machine
end

section
/-! ### Truncating division is the truncated exact quotient (40_convert.md R80, R81) -/

namespace Sys2Proof.Machine

theorem tdiv_neg_right (a b : Int) : tdiv a (-b) = -tdiv a b := Int.tdiv_neg ..

/-- Sign and magnitude of the quotient; where the magnitude is 0 the sign does not count. -/
theorem tdiv_eq_sign_mul (a b : Int) : tdiv a b = a.sign * b.sign * ((a.natAbs / b.natAbs : Nat) : Int) := by
  rw [tdiv, ← Int.sign_mul_natAbs (a.tdiv b), Int.sign_tdiv, Int.natAbs_tdiv]
  split_ifs with h
  · rw [Nat.div_eq_of_lt h, zero_mul, Nat.cast_zero, mul_zero]
  · rfl

/-- A common positive factor of dividend and divisor cancels. -/
theorem tdiv_mul_mul_of_pos {c : Int} (hc : 0 < c) (a b : Int) : tdiv (a * c) (b * c) = tdiv a b :=
  Int.mul_tdiv_mul_of_pos_left _ _ hc

theorem tdiv_mono {a a' b : Int} (hb : 0 < b) (h : a ≤ a') : tdiv a b ≤ tdiv a' b := Int.tdiv_le_tdiv hb h

/-- Truncation toward zero treats both signs alike. -/
theorem truncQ_neg (q : Rat) : truncQ (-q) = -truncQ q := by
  unfold truncQ
  rcases lt_trichotomy q 0 with h | rfl | h
  · simp [h.le, h.not_ge, Int.floor_neg]
  · simp
  · simp [h.le, h.not_ge, Int.ceil_neg]

theorem truncQ_div_of_nonneg {a b : Int} (ha : 0 ≤ a) (hb : 0 ≤ b) : truncQ ((a : Rat) / b) = tdiv a b := by
  lift b to Nat using hb
  have hq : 0 ≤ (a : Rat) / b := div_nonneg (mod_cast ha) b.cast_nonneg
  rw [tdiv_of_nonneg ha, Int.cast_natCast, truncQ, if_pos hq, Rat.floor_intCast_div_natCast]

/-- `tdiv` is the exact quotient truncated toward zero: both sides change sign with the dividend and with the divisor. -/
theorem tdiv_eq_truncQ (a b : Int) : tdiv a b = truncQ ((a : Rat) / b) := by
  have hdividend {b : Int} (hb : 0 ≤ b) (a : Int) : tdiv a b = truncQ ((a : Rat) / b) := by
    rcases le_total 0 a with ha | ha
    · exact (truncQ_div_of_nonneg ha hb).symm
    · rw [← neg_neg a, tdiv_neg_left, Int.cast_neg, neg_div, truncQ_neg, truncQ_div_of_nonneg (by omega) hb]
  rcases le_total 0 b with hb | hb
  · exact hdividend hb a
  · rw [← neg_neg b, tdiv_neg_right, Int.cast_neg, div_neg, truncQ_neg, hdividend (by omega)]

/-- When the exact quotient is not negative (40_convert.md R80). -/
theorem div_nonneg_iff_signs {b : Int} (hb : b ≠ 0) (a : Int) :
    0 ≤ (a : Rat) / b ↔ a = 0 ∨ (0 < a ∧ 0 < b) ∨ (a < 0 ∧ b < 0) := by
  rw [div_nonneg_iff]
  norm_cast
  omega

/-- Settles O22: the quotient by sign and magnitude, and as the truncated exact quotient. -/
theorem truncatingDivision : Obligations.TruncatingDivision := by
  refine ⟨fun a b _ => tdiv_eq_sign_mul a b, fun b _ => Int.zero_tdiv b, rfl, rfl, rfl, rfl, rfl, fun a b hb => ?_, rfl, rfl⟩
  rw [tdiv_eq_truncQ, truncQ]
  exact if_congr (div_nonneg_iff_signs hb a) rfl rfl

end Sys2Proof.Machine
end

section
/-! ### The two stages of the converter (40_convert.md R82 to R84, R87 to R89) -/

namespace Sys2Proof.Machine

/-- Settles O23: the quotient in the linear map, and in each stage, is the truncated exact one. -/
theorem stagesTruncateExactQuotient : Obligations.StagesTruncateExactQuotient := by
  refine ⟨fun x a0 a1 b0 b1 _ => ?_, fun angle => ?_, fun angle => ?_⟩
  · simp [linearMap, tdiv_eq_truncQ]
  · simp [pulse_eq, tdiv_eq_truncQ]
  · simp [offCount_eq, tdiv_eq_truncQ]

/-- Settles O25: the factors 20 and 32 cancel, and on a non-negative dividend truncation is floor. -/
theorem reducedForms : Obligations.ReducedForms := by
  have hpulse (angle : Int) : pulse angle = 700 + tdiv (angle * 80) 9 := by
    rw [pulse_eq, ← tdiv_mul_mul_of_pos (c := 20) (by decide) (angle * 80), mul_assoc]
    rfl
  have hoff (p : Int) : pulseToOff p = tdiv (p * 128) 625 := by
    rw [pulseToOff_eq, ← tdiv_mul_mul_of_pos (c := 32) (by decide) (p * 128), mul_assoc]
    rfl
  refine ⟨hpulse, hoff, fun angle h => ?_, fun p h => ?_⟩
  · rw [hpulse, tdiv_of_nonneg (by omega), mul_comm]
  · rw [hoff, tdiv_of_nonneg (by omega), mul_comm]

/-! #### Both stages are monotone, so their values at two angles bound those between -/

theorem pulse_mono : Monotone pulse := fun a b h => by
  have := tdiv_mono (b := 180) (by decide) (show a * 1600 ≤ b * 1600 by omega)
  rw [pulse_eq, pulse_eq]
  omega

theorem offCount_mono : Monotone offCount := fun a b h => by
  have hp : pulse a ≤ pulse b := pulse_mono h
  rw [offCount_eq, offCount_eq]
  exact tdiv_mono (by decide) (by omega)

/-- Where a monotone function steps over `m` between `n - 1` and `n`, its values are at least `m` from `n` on and less before. -/
theorem le_iff_of_step {f : Int → Int} (hf : Monotone f) {m n : Int} (hbelow : f (n - 1) < m) (hat : m ≤ f n) (x : Int) :
    m ≤ f x ↔ n ≤ x := by
  constructor
  · intro h
    by_contra hx
    have : f x ≤ f (n - 1) := hf (by omega)
    omega
  · exact fun h => hat.trans (hf h)

/-- Settles O24: the interval and the sign by the angles at which the pulse width steps over 700, 2301 and 0. -/
theorem pulseOfAngle : Obligations.PulseOfAngle := by
  have h700 := le_iff_of_step pulse_mono (m := 700) (n := 0) (by decide) (by decide)
  have h2301 := le_iff_of_step pulse_mono (m := 2301) (n := 181) (by decide) (by decide)
  have hzero := le_iff_of_step pulse_mono (m := 0) (n := -78) (by decide) (by decide)
  refine ⟨pulse_eq, by decide, by decide, by decide, fun angle => ?_, fun angle => ?_⟩
  · have := h700 angle
    have := h2301 angle
    omega
  · have := hzero angle
    omega

/-- Settles O26: the values at the two ends of the angle range. -/
theorem intermediatesFit32Bits : Obligations.IntermediatesFit32Bits := by
  intro angle hlo hhi
  have hpulseLo : -290571 ≤ pulse angle := pulse_mono hlo
  have hpulseHi : pulse angle ≤ 291962 := pulse_mono hhi
  exact ⟨by omega, ⟨hpulseLo, hpulseHi⟩, by omega, offCount_mono hlo, offCount_mono hhi⟩

/-- From 0 degrees on, one degree more is 8 or 9 microseconds more. -/
theorem pulse_succ {angle : Int} (h : 0 ≤ angle) : pulse (angle + 1) = pulse angle + 8 ∨ pulse (angle + 1) = pulse angle + 9 := by
  rw [pulse_eq, pulse_eq, tdiv_of_nonneg (by omega), tdiv_of_nonneg (by omega)]
  omega

/-- Settles O28: 8 or 9 microseconds are more than 1 and less than 2 ticks. -/
theorem offCountMonotone : Obligations.OffCountMonotone := by
  refine ⟨fun a b h => offCount_mono h, fun a ha _ => ?_⟩
  have hpos : 0 ≤ pulse a := le_trans (by decide) (pulse_mono ha)
  have hstep := pulse_succ ha
  rw [offCount_eq, offCount_eq, tdiv_of_nonneg (by omega), tdiv_of_nonneg (by omega)]
  omega

/-- Settles O29: from -80 to -79 the count reaches 0, and from 2171 to 2172 it steps over 4096. -/
theorem offCountTwelveBitExactly : Obligations.OffCountTwelveBitExactly := by
  intro angle
  have hzero := le_iff_of_step offCount_mono (m := 0) (n := -79) (by decide) (by decide) angle
  have h4096 := le_iff_of_step offCount_mono (m := 4096) (n := 2172) (by decide) (by decide) angle
  have h4097 := le_iff_of_step offCount_mono (m := 4097) (n := 2172) (by decide) (by decide) angle
  omega

end Sys2Proof.Machine
end

section
/-! ### The 32-bit datapath (00_scope.md R6; 40_convert.md R88) -/

namespace Sys2Proof.Machine

/-- A number that fits a signed 32-bit word is read back from it. -/
theorem toInt_ofInt32 {x : Int} (h : -2147483648 ≤ x ∧ x < 2147483648) : (BitVec.ofInt 32 x).toInt = x :=
  BitVec.toInt_ofInt_eq_self (by decide) h.1 h.2

/-- Signed division of words is `tdiv` of the numbers they hold. -/
theorem sdiv_ofInt32 {x y : Int} (hx : -2147483648 ≤ x ∧ x < 2147483648) (hy : -2147483648 ≤ y ∧ y < 2147483648) :
    (BitVec.ofInt 32 x).sdiv (BitVec.ofInt 32 y) = BitVec.ofInt 32 (tdiv x y) := by
  apply BitVec.eq_of_toInt_eq
  rw [BitVec.toInt_sdiv, toInt_ofInt32 hx, toInt_ofInt32 hy, BitVec.toInt_ofInt, tdiv]

/-- The low half of a word is the number it holds modulo 2^16. -/
theorem setWidth_ofInt32 (x : Int) : (BitVec.ofInt 32 x).setWidth 16 = BitVec.ofInt 16 x := by
  apply BitVec.eq_of_toNat_eq
  simp only [BitVec.toNat_setWidth, BitVec.toNat_ofInt]
  omega

/-- The range of an angle word (30_encoding.md R61). -/
theorem toInt_half_bounds (a : Half) : -32768 ≤ a.toInt ∧ a.toInt ≤ 32767 := ⟨a.le_toInt, Int.le_of_lt_add_one a.toInt_lt⟩

/-- The datapath holds the off-count: sums and products of words wrap as those of numbers do, and the dividends fit. -/
theorem offCount32_eq (a : Half) : offCount32 a = BitVec.ofInt 32 (offCount a.toInt) := by
  obtain ⟨hlo, hhi⟩ := toInt_half_bounds a
  obtain ⟨hproduct, -, hdividend, -⟩ := intermediatesFit32Bits a.toInt hlo hhi
  have hstage1 : (a.signExtend 32 * 1600#32).sdiv 180#32 = BitVec.ofInt 32 (tdiv (a.toInt * 1600) 180) := by
    rw [← sdiv_ofInt32 (by omega) (by decide), BitVec.ofInt_mul]
    rfl
  have hpulse : 700#32 + (a.signExtend 32 * 1600#32).sdiv 180#32 = BitVec.ofInt 32 (pulse a.toInt) := by
    rw [hstage1, pulse_eq, BitVec.ofInt_add]
    rfl
  calc offCount32 a = (BitVec.ofInt 32 (pulse a.toInt) * 4096#32).sdiv 20000#32 := by rw [← hpulse]; rfl
    _ = BitVec.ofInt 32 (offCount a.toInt) := by
      rw [offCount_eq, ← sdiv_ofInt32 (by omega) (by decide), BitVec.ofInt_mul]
      rfl

/-- Settles O27: the off-count fits a signed word, and its low half is OFF16. -/
theorem datapath32ComputesOffCount : Obligations.Datapath32ComputesOffCount := by
  intro a
  obtain ⟨hlo, hhi⟩ := toInt_half_bounds a
  obtain ⟨-, -, -, hoffLo, hoffHi⟩ := intermediatesFit32Bits a.toInt hlo hhi
  rw [offCount32_eq, sext16_eq_toInt, toInt_ofInt32 (by omega), setWidth_ofInt32]
  exact ⟨rfl, rfl⟩

end Sys2Proof.Machine
end

section
/-! ### The byte split and CONV (40_convert.md R85, R90) -/

namespace Sys2Proof.Machine

theorem toNat_ofInt_byte (x : Int) : ((BitVec.ofInt 8 x).toNat : Int) = x % 256 := by
  rw [BitVec.toNat_ofInt]
  omega

theorem lowByte_off16_toNat (angle : Int) : ((lowByte (off16 angle)).toNat : Int) = offCount angle % 256 := by
  rw [off16, lowByte_ofInt, toNat_ofInt_byte]

theorem highByte_off16_toNat (angle : Int) : ((highByte (off16 angle)).toNat : Int) = offCount angle / 256 % 256 := by
  rw [off16, highByte_ofInt, toNat_ofInt_byte, Int.shiftRight_eq_div_pow]
  rfl

/-- Settles O30: the two bytes are the last two digits of the count to the base 256. -/
theorem offCountByteSplit : Obligations.OffCountByteSplit := by
  intro angle
  refine ⟨lowByte_off16_toNat angle, highByte_off16_toNat angle, (highByte_append_lowByte _).symm, fun hlo hhi => ?_⟩
  rw [lowByte_off16_toNat, highByte_off16_toNat]
  omega

/-- A response OK without INFO is OFF16 (30_encoding.md R63). -/
theorem responseWord_ok (o : Half) : responseWord .ok 0 o = o.setWidth 32 := by
  apply BitVec.eq_of_toNat_eq
  rw [responseWord_toNat, BitVec.toNat_setWidth_of_le (by decide)]
  simp [Status.code]

/-- What CONV's response does to the state, with the formula written out (40_convert.md R90). -/
theorem respond_ok_eq (s : State) (angle : Int) : s.respond .ok 0 (off16 angle) =
    { s with responses := s.responses ++
      [(BitVec.ofInt 16 (tdiv ((700 + tdiv (angle * 1600) 180) * 4096) 20000)).setWidth 32] } := by
  rw [State.respond, responseWord_ok, off16, offCount_eq, pulse_eq]

/-- Settles O31: CONV responds and does nothing else. -/
theorem convRespondsOffCount : Obligations.ConvRespondsOffCount := fun angle s => by
  rw [exec_conv, respond_ok_eq]

/-- The command word of CONV is format A with OP = 1 (30_encoding.md R60, R62). -/
theorem convWord_eq (a : Half) : 0x10000000#32 ||| a.setWidth 32 = commandWord 1 0 a :=
  (BitVec.append_def (0x1000#16) a).symm

theorem decode_convWord (a : Half) : decode (0x10000000#32 ||| a.setWidth 32) = .ok (.conv a.toInt) := by
  rw [convWord_eq, decode_eq_ok_iff]
  exact .inl (by simp [sext16_eq_toInt])

/-- Settles O32: the step takes the word, and runs the CONV it decodes to. -/
theorem convCommandWord : Obligations.ConvCommandWord := by
  refine ⟨fun s a rest hr hb hc => ?_, by decide⟩
  rw [step_command hr hb hc, acceptWord_ok (decode_convWord a), convRespondsOffCount]
  simp [State.takeCommand, hc]

end Sys2Proof.Machine
end

section
/-! ### The channel blocks (20_memory.md R42; 41_servo_write.md R100) -/

namespace Sys2Proof.Machine

/-- Settles O33: the address determines channel and offset as the quotient and the remainder by the stride. -/
theorem channelBlocksTile : Obligations.ChannelBlocksTile := by
  refine ⟨fun ch ofs hch hofs => ?_, fun ch ofs ch' ofs' hch hofs hch' hofs' heq => ?_, fun a hlo hhi => ?_⟩
  · rw [channelReg_toNat hch hofs]
    omega
  · have haddr := congrArg BitVec.toNat heq
    rw [channelReg_toNat hch hofs, channelReg_toNat hch' hofs'] at haddr
    omega
  · refine ⟨(a - 8) / 4, (a - 8) % 4, by omega, by omega, ?_⟩
    rw [channelReg_toNat (by omega) (by omega)]
    omega

end Sys2Proof.Machine
end

section
/-! ### A SERVO that is rejected and one that is served (41_servo_write.md R105 to R108) -/

namespace Sys2Proof.Machine

/-- The response to an exception: the status code and INFO, with OFF16 = 0 (30_encoding.md R63, 60_exceptions.md R144). -/
theorem responseWord_off16_zero (st : Status) (info : Byte) :
    responseWord st info 0 = BitVec.ofNat 32 (st.code.toNat * 0x10000000) + BitVec.ofNat 32 (info.toNat * 0x10000) := by
  have hcode := st.code.isLt
  have hinfo := info.isLt
  rw [← BitVec.ofNat_add]
  refine BitVec.eq_of_toNat_eq ?_
  rw [responseWord_toNat, BitVec.toNat_ofNat, Nat.mod_eq_of_lt (by omega)]
  simp

/-- Settles O34: INFO is the whole channel, which fits its byte. -/
theorem servoRejectsInvalidChannel : Obligations.ServoRejectsInvalidChannel := by
  intro s ch angle hch hfits
  have hinfo : (BitVec.ofNat 8 ch).toNat = ch := zext8_ofNat (decide_eq_true hfits)
  rw [exec_servo_invalid hch, State.raise, State.respond, responseWord_off16_zero, Exception.info, hinfo]
  simp [Exception.status, Status.code]

/-- Settles O35: the steps of the SERVO are all served, and after them INIT_DONE is set, by them or before them. -/
theorem servoCompletesWhenServed : Obligations.ServoCompletesWhenServed := by
  intro s ch angle e hch hserve
  have hinit : (s.initDone || decide (Op.setInitDone ∈ servoOps s.cfg s.initDone ch angle)) = true := by
    cases s.initDone <;> simp
  rw [exec_servo_valid hch, perform_served (by simpa using hserve), State.ran, hinit, opsEvents_servoOps]
  rfl

/-- The lazy init comes before what a SERVO emits with INIT_DONE = 1. -/
theorem servoTrace_eq (c : Config) (d : Bool) (ch : Nat) (angle : Int) :
    servoTrace c d ch angle = (if d then [] else initTrace c) ++ servoTrace c true ch angle := by
  simp [servoTrace]

/-- Settles O36: the steps of the SERVO have its full trace as their events. -/
theorem servoEmitsLowBeforeHigh : Obligations.ServoEmitsLowBeforeHigh := by
  intro s ch angle hch
  refine ⟨_, exec_servo_valid hch angle s, ?_⟩
  rw [perform_trace, opsEvents_servoOps]
  rfl

end Sys2Proof.Machine
end

section
/-! ### A SERVO with a failed write (41_servo_write.md R109, 42_init.md R124, 60_exceptions.md R142) -/

namespace Sys2Proof.Machine

/-- What comes before the first failed write, and does not write its register, is served. -/
theorem Env.serve_of_firstFailure {a b : List Event} {e : Env} {r : Byte} (h : firstFailure (a ++ b) e = some r)
    (hr : r.toNat ∉ writtenRegs a) : ∃ e', Env.serve a e = some e' := by
  induction a generalizing e with
  | nil => exact ⟨e, rfl⟩
  | cons ev a ih =>
    cases ev with
    | w r' v =>
      simp only [writtenRegs, List.mem_cons, not_or] at hr
      obtain ⟨hne, hr⟩ := hr
      rcases ha : e.takeAnswer with _ | ⟨_ | _, e₁⟩ <;> simp only [List.cons_append, firstFailure, ha] at h
      · cases h
      · simpa [Env.serve, ha] using ih h hr
      · cases h
        exact absurd rfl hne
    | d ms =>
      rcases ha : e.takeReturn with _ | e₁ <;> simp only [List.cons_append, firstFailure, ha] at h
      · cases h
      · simpa [Env.serve, ha] using ih h hr

/-- Events with a failed write are not all served. -/
theorem Env.serve_eq_none_of_firstFailure {es : List Event} {e : Env} {r : Byte} (h : firstFailure es e = some r) :
    Env.serve es e = none := by
  refine Option.eq_none_iff_forall_ne_some.2 fun e' hs => ?_
  have hnone := firstFailure_append hs []
  rw [List.append_nil, h] at hnone
  cases hnone

/-- A configured delay writes no register. -/
@[simp] theorem writtenRegs_delayIf (b : Bool) (ms : Word) : writtenRegs (if b then [.d ms] else []) = [] := by cases b <;> rfl

/-- The registers of the init sequence (42_init.md R121); the soft reset writes none that step 2 does not write. -/
theorem mem_writtenRegs_initTrace {c : Config} {a : Nat} :
    a ∈ writtenRegs (initTrace c) ↔ a ∈ [0x00, 0xFA, 0xFB, 0xFC, 0xFD, 0xFE] := by
  cases h : c.softResetEn <;> simp [initTrace, h, writtenRegs] <;> tauto

theorem mem_writtenRegs_initCommandTrace {c : Config} {d : Bool} {a : Nat} :
    a ∈ writtenRegs (initCommandTrace c d) ↔ d = false ∧ a ∈ [0x00, 0xFA, 0xFB, 0xFC, 0xFD, 0xFE] := by
  cases d <;> simp [initCommandTrace, writtenRegs, mem_writtenRegs_initTrace]

/-- The steps of a SERVO, split before the high byte (41_servo_write.md R107). -/
theorem servoOps_eq (c : Config) (d : Bool) (ch : Nat) (angle : Int) :
    servoOps c d ch angle = (lazyInit c d ++ [.memWrite (offLowReg ch) (lowByte (off16 angle))]) ++
      .memWrite (offHighReg ch) (highByte (off16 angle)) :: holdIf c.postWriteDelayEn c := by
  simp [servoOps, formPair]

/-- With INIT_DONE = 1 a SERVO is its two writes and the configured delay. -/
theorem exec_servo_initialised {s : State} {ch : Nat} (hch : ch ≤ 15) (hinit : s.initDone = true) (angle : Int) :
    exec (.servo ch angle) s = .next (perform (.memWrite (offLowReg ch) (lowByte (off16 angle)) ::
      .memWrite (offHighReg ch) (highByte (off16 angle)) :: holdIf s.cfg.postWriteDelayEn s.cfg) s) := by
  rw [exec_servo_valid hch, servoOps_eq, hinit]
  rfl

/-- What a write answered failed does: the register becomes unknown and INFO names it. -/
theorem failedWrite_eq (s : State) (r v : Byte) (e : Env) :
    (((s.emitWrite r v).withEnv e).writeFailed r).raise (.transportError r) = { s with
      env := e
      trace := s.trace ++ [.w r v]
      fates := s.fates ++ [.answered .failed]
      responses := s.responses ++ [0x20000000#32 + BitVec.ofNat 32 (r.toNat * 0x10000)]
      image := s.image.forget r.toNat } := by
  rw [State.raise, State.respond, responseWord_off16_zero]
  simp [State.emitWrite, State.withEnv, State.writeFailed, Exception.status, Exception.info, Status.code]

/-- From `s`, a command with the events `es` has ended with TransportError at its first failed write, which is to `r`
(60_exceptions.md R142). -/
structure StoppedBy (s t : State) (es : List Event) (r : Byte) : Prop where
  busy : t.busy = s.busy
  trace : t.trace = s.trace ++ emitted es s.env
  responses : t.responses = s.responses ++ [0x20000000#32 + BitVec.ofNat 32 (r.toNat * 0x10000)]
  unknown : t.image.read r.toNat = none

theorem perform_stoppedBy {ops : List Op} {s : State} {r : Byte} (h : firstFailure (opsEvents ops) s.env = some r) :
    StoppedBy s (perform ops s) (opsEvents ops) r := by
  obtain ⟨done, v, rest, e, e', -, -, -, hperform⟩ := perform_firstFailure h
  rw [failedWrite_eq] at hperform
  exact ⟨by rw [hperform]; rfl, perform_trace ops s, by rw [hperform]; rfl, by rw [hperform]; simp⟩

/-- A SERVO whose first failed write is to OFF-high has had its low byte answered done, and the image keeps it. -/
theorem servo_highFailed_image {s : State} {ch : Nat} (hch : ch ≤ 15) (angle : Int)
    (h : firstFailure (servoTrace s.cfg s.initDone ch angle) s.env = some (offHighReg ch)) :
    (perform (servoOps s.cfg s.initDone ch angle) s).image.read (offLowReg ch).toNat = some (lowByte (off16 angle)) := by
  have hlow := offLowReg_toNat hch
  have hhigh := offHighReg_toNat hch
  have hnotin : (offHighReg ch).toNat ∉
      writtenRegs (opsEvents (lazyInit s.cfg s.initDone ++ [.memWrite (offLowReg ch) (lowByte (off16 angle))])) := by
    simp [opsEvents, Op.events, writtenRegs, mem_writtenRegs_initCommandTrace, hlow, hhigh]
    omega
  rw [← opsEvents_servoOps, servoOps_eq, opsEvents_append] at h
  obtain ⟨e, hserve⟩ := Env.serve_of_firstFailure h hnotin
  rw [servoOps_eq, perform_append hserve, perform_image]
  · simp [writeAll_append, opsEvents, Op.events, writeAll]
  · simp [opsEvents, opsEvents_holdIf, Op.events, writtenRegs, hlow, hhigh]

/-- A SERVO with a valid channel sets INIT_DONE exactly if it was set or the init sequence is served (42_init.md R122, R124). -/
theorem servo_initDone_iff {s t : State} {ch : Nat} (hch : ch ≤ 15) {angle : Int} (ht : exec (.servo ch angle) s = .next t) :
    t.initDone = true ↔ s.initDone = true ∨ (Env.serve (initTrace s.cfg) s.env).isSome = true := by
  cases hd : s.initDone with
  | true => simp [exec_keeps_initDone ht hd]
  | false => simpa using (initDoneExactlyAfterWholeSequence s t hd (.inr ⟨ch, angle, hch, ht⟩)).1

/-- Settles O37: with INIT_DONE = 1 the two writes are the first steps of the SERVO; the other clauses are about the first failed
write of its trace, which is that of the init trace where that one fails. -/
theorem servoTransportFailure : Obligations.ServoTransportFailure := by
  have hlow {ch : Nat} (hch : ch ≤ 15) : (offLowReg ch).toNat = 0x08 + 4 * ch + 2 := channelReg_toNat hch (by decide)
  have hhigh {ch : Nat} (hch : ch ≤ 15) : (offHighReg ch).toNat = 0x08 + 4 * ch + 3 := channelReg_toNat hch (by decide)
  refine ⟨fun s ch angle e hch hinit ha => ?_, fun s ch angle e₁ e₂ hch hinit ha₁ ha₂ => ?_, fun s ch angle r hch hinit hf => ?_,
    fun s ch angle r hch hf => ?_⟩
  · rw [exec_servo_initialised hch hinit, perform_memWrite_failed ha, failedWrite_eq, hlow hch]
  · rw [exec_servo_initialised hch hinit, perform_memWrite_done ha₁, perform_memWrite_failed (s := s.ran _ e₁) ha₂, failedWrite_eq,
      hhigh hch, ← hlow hch]
    simp [State.ran, opsEvents, Op.events, writeCount, writeAll]
  · have hexec := exec_servo_valid hch angle s
    have htrace : initTrace s.cfg ++ servoTrace s.cfg true ch angle = opsEvents (servoOps s.cfg s.initDone ch angle) := by
      rw [opsEvents_servoOps, servoTrace_eq s.cfg s.initDone, hinit]
      rfl
    obtain ⟨hf', hemitted⟩ := emitted_firstFailure hf (servoTrace s.cfg true ch angle)
    rw [htrace] at hf' hemitted
    obtain ⟨hbusy, ht, hresponses, -⟩ := perform_stoppedBy hf'
    have hdone := servo_initDone_iff hch hexec
    rw [Env.serve_eq_none_of_firstFailure hf] at hdone
    exact ⟨_, hexec, by simpa [hinit] using hdone, hbusy, hemitted ▸ ht, hresponses⟩
  · have hexec := exec_servo_valid hch angle s
    obtain ⟨hbusy, ht, hresponses, hunknown⟩ := perform_stoppedBy ((opsEvents_servoOps ..).symm ▸ hf)
    rw [opsEvents_servoOps] at ht
    refine ⟨_, hexec, hbusy, ht, hresponses, servo_initDone_iff hch hexec, hunknown, fun hr => ?_⟩
    obtain rfl : r = offHighReg ch := BitVec.eq_of_toNat_eq (hr.trans (hhigh hch).symm)
    rw [← hlow hch]
    exact servo_highFailed_image hch angle hf

end Sys2Proof.Machine
end

section
/-! ### The frame of SERVO (41_servo_write.md R105, R106) -/

namespace Sys2Proof.Machine

section
variable {e e₁ : Env} {a : Answer} {es : List Event}

theorem Env.takeAnswer_answers (h : e.takeAnswer = some (a, e₁)) : e₁.answers <:+ e.answers := by
  obtain ⟨_ | ⟨b, answers⟩, _ | _, delays⟩ := e <;> cases h <;> simp

theorem Env.takeReturn_answers (h : e.takeReturn = some e₁) : e₁.answers = e.answers := by
  obtain ⟨answers, standing, _ | _ | n⟩ := e <;> cases h <;> rfl

/-- Serving uses up listed answers from the front. -/
theorem Env.serve_answers (h : Env.serve es e = some e₁) : e₁.answers <:+ e.answers := by
  obtain ⟨-, -, -, h'⟩ := Env.serve_simulates (R := fun d d' => d' = d ∧ d.answers <:+ e.answers)
    (fun ⟨hd, hR⟩ ha => ⟨_, hd ▸ ha, rfl, (Env.takeAnswer_answers ha).trans hR⟩)
    (fun ⟨hd, hR⟩ ha => ⟨_, hd ▸ ha, rfl, Env.takeReturn_answers ha ▸ hR⟩) ⟨rfl, List.suffix_rfl⟩ h
  exact h'
end

/-- A command leaves the standing answer as it is and uses up listed answers from the front. -/
theorem perform_env (ops : List Op) (s : State) :
    (perform ops s).env.standing = s.env.standing ∧ (perform ops s).env.answers <:+ s.env.answers := by
  have hc := perform_cases ops s
  generalize perform ops s = t at hc
  cases hc with
  | completed e served => exact ⟨Env.serve_standing served, Env.serve_answers served⟩
  | failed done r v rest e e' _ served answer =>
    exact ⟨(Env.takeAnswer_standing answer).trans (Env.serve_standing served),
      (Env.takeAnswer_answers answer).trans (Env.serve_answers served)⟩
  | waitAnswer done r v rest e _ served _ => exact ⟨Env.serve_standing served, Env.serve_answers served⟩
  | waitReturn done ms rest e _ served _ => exact ⟨Env.serve_standing served, Env.serve_answers served⟩

/-- A command only adds to what has been emitted and answered. -/
theorem perform_adds (ops : List Op) (s : State) : ∃ es fs rs, Adds s (perform ops s) es fs rs := by
  obtain ⟨-, es, fs, rs, h, -⟩ := historyBlind_performIn ops .whole (s := s) rfl
  exact ⟨es, fs, rs, h⟩

/-- The registers of a SERVO's trace: its OFF pair and, with the lazy init, those of the init sequence. -/
theorem mem_writtenRegs_servoTrace {c : Config} {d : Bool} {ch : Nat} {angle : Int} {a : Nat} :
    a ∈ writtenRegs (servoTrace c d ch angle) ↔
      (d = false ∧ a ∈ [0x00, 0xFA, 0xFB, 0xFC, 0xFD, 0xFE]) ∨ a = (offLowReg ch).toNat ∨ a = (offHighReg ch).toNat := by
  rw [← mem_writtenRegs_initCommandTrace (c := c)]
  simp [servoTrace, initCommandTrace, pairTrace_eq, writtenRegs]

/-- Settles O41: a rejected SERVO only responds, and one with a valid channel performs its steps. -/
theorem servoFrame : Obligations.ServoFrame := by
  intro s t ch angle ht
  have hkeeps := exec_keeps_initDone ht
  rcases le_or_gt ch 15 with hch | hch
  · rw [exec_servo_valid hch] at ht
    cases ht
    obtain ⟨hcfg, hcommands, hreset, hline⟩ := perform_frame (servoOps s.cfg s.initDone ch angle) s
    obtain ⟨hstanding, hanswers⟩ := perform_env (servoOps s.cfg s.initDone ch angle) s
    obtain ⟨es, fs, rs, adds⟩ := perform_adds (servoOps s.cfg s.initDone ch angle) s
    refine ⟨hcfg, hcommands, hreset, hline, hstanding, hanswers, hkeeps, ⟨es, adds.trace.symm⟩, ⟨fs, adds.fates.symm⟩,
      ⟨rs, adds.responses.symm⟩, fun h => absurd hch (by omega), fun a hpair hinit => perform_image _ s a ?_⟩
    rw [opsEvents_servoOps, mem_writtenRegs_servoTrace]
    rintro (⟨hd, ha⟩ | ha | ha)
    · exact hinit hch hd ha
    · exact (hpair hch).1 ha
    · exact (hpair hch).2 ha
  · rw [exec_servo_invalid hch] at ht
    cases ht
    exact ⟨rfl, rfl, rfl, rfl, rfl, List.suffix_rfl, hkeeps, List.prefix_rfl, List.prefix_rfl, List.prefix_append .., fun _ => rfl,
      fun _ _ _ => rfl⟩

end Sys2Proof.Machine
end

section
/-! ### Runs of SERVO commands without a failure (41_servo_write.md R110) -/

namespace Sys2Proof.Machine

/-- A2P is idle, is not reset, and every environment in store is ALL_DONE (92_eei_decisions.md D22). -/
structure Undisturbed (s : State) : Prop where
  idle : s.busy = none
  noReset : s.resetLine = []
  allDone : ∀ e ∈ s.env :: s.envLine, e.allDone

/-- The environment of the coming step is ALL_DONE. -/
theorem Undisturbed.tick_env {s : State} (h : Undisturbed s) : s.tick.env.allDone := by
  rw [State.tick_env]
  cases hl : s.envLine with
  | nil => exact h.allDone _ List.mem_cons_self
  | cons e line => exact h.allDone e (by simp [hl])

theorem writeCount_servoTrace_initialised (c : Config) (ch : Nat) (angle : Int) : writeCount (servoTrace c true ch angle) = 2 := by
  cases h : c.postWriteDelayEn <;> simp [servoTrace, pairTrace, h, writeCount]

/-- Undisturbed, the SERVO whose word comes next completes in one step, and A2P is undisturbed again. -/
theorem step_servo {s : State} {ch : Nat} {angle : Int} {rest : List Word} (h : Undisturbed s) (hch : ch ≤ 15)
    (hangle : angleFits angle = true) (hc : s.commands = encode (.servo ch angle) :: rest) :
    ∃ t, step s = .next t ∧ Undisturbed t ∧ t.commands = rest ∧ t.cfg = s.cfg ∧ t.initDone = true ∧
      t.trace = s.trace ++ servoTrace s.cfg s.initDone ch angle ∧ t.responses = s.responses ++ [0x00000000#32] := by
  have hd : decode (encode (.servo ch angle)) = .ok (.servo ch angle) :=
    decodeOfEncode _ (by simpa [Instr.wellFormed, channelFits, hangle] using (by omega : ch ≤ 255))
  have henv : s.tick.takeCommand.env.allDone := h.tick_env
  have hstep := step_command (by simp [State.resetNow, h.noReset]) h.idle hc
  rw [acceptWord_ok hd, servoCompletesWhenServed _ ch angle _ hch (henv.serve_eq _)] at hstep
  refine ⟨_, hstep, ⟨h.idle, by simp [h.noReset], fun e he => ?_⟩, by simp [hc], rfl, rfl, rfl, rfl⟩
  rcases List.mem_cons.1 he with rfl | he
  · exact henv.drop _
  · exact h.allDone e (List.mem_cons_of_mem _ (List.mem_of_mem_tail he))

/-- With INIT_DONE = 1, each SERVO of a run emits its own trace and no init trace. -/
theorem run_servos_initialised {servos : List (Nat × Int)} (hfits : ∀ p ∈ servos, p.1 ≤ 15 ∧ angleFits p.2 = true) {s : State}
    (h : Undisturbed s) (hinit : s.initDone = true) (hc : s.commands = servos.map fun p => encode (.servo p.1 p.2)) :
    ∃ t, Host.Core.run Sys2Proof.core servos.length s = .next t ∧
      t.trace = s.trace ++ servos.flatMap (fun p => servoTrace s.cfg true p.1 p.2) ∧
      t.responses = s.responses ++ servos.map (fun _ => 0x00000000#32) ∧ t.initDone = true := by
  induction servos generalizing s with
  | nil => exact ⟨s, rfl, by simp, by simp, hinit⟩
  | cons p servos ih =>
    obtain ⟨⟨hch, hangle⟩, hfits⟩ := List.forall_mem_cons.1 hfits
    obtain ⟨u, hstep, hu, hcommands, hcfg, hdone, htrace, hresponses⟩ := step_servo h hch hangle hc
    obtain ⟨t, hrun, ht, hr, hd⟩ := ih hfits hu hdone hcommands
    exact ⟨t, (run_step hstep _).trans hrun, by simp [ht, htrace, hcfg, hinit], by simp [hr, hresponses], hd⟩

/-- Settles O56: after the first SERVO, which may run the lazy init, INIT_DONE is 1. -/
theorem onlyFirstServoInitialises : Obligations.OnlyFirstServoInitialises := by
  intro servos s hne hfits hb hreset hc hdone
  obtain ⟨p, servos, rfl⟩ := List.exists_cons_of_ne_nil hne
  obtain ⟨⟨hch, hangle⟩, hfits⟩ := List.forall_mem_cons.1 hfits
  obtain ⟨u, hstep, hu, hcommands, hcfg, hinit, htrace, hresponses⟩ := step_servo ⟨hb, hreset, hdone⟩ hch hangle hc
  obtain ⟨t, hrun, ht, hr, hd⟩ := run_servos_initialised hfits hu hinit hcommands
  refine ⟨t, (run_step hstep _).trans hrun, ?_, fun p _ => writeCount_servoTrace_initialised s.cfg p.1 p.2, ?_, hd⟩
  · rw [ht, htrace, hcfg, servoTrace_eq]
    simp
  · simp [hr, hresponses]

end Sys2Proof.Machine
end

section
/-! ### The command INIT (42_init.md R121, R123 to R126) -/

namespace Sys2Proof.Machine

/-- With INIT_DONE = 0, INIT performs the init sequence (42_init.md R125). -/
theorem exec_init_uninitialised {s : State} (h : s.initDone = false) : exec .init s = .next (perform (initSequence s.cfg) s) := by
  rw [exec_init, h]
  rfl

/-- With INIT_DONE = 1, INIT only responds (42_init.md R125, the spec's decision D17). -/
theorem exec_init_initialised {s : State} (h : s.initDone = true) : exec .init s = .next (s.respond .ok 0 0) := by
  rw [exec_init, h]
  rfl

/-- Settles O42: the steps of the sequence are all served, and one of them sets INIT_DONE. -/
theorem initCompletesWhenServed : Obligations.InitCompletesWhenServed := by
  refine ⟨fun s e hinit hserve => ?_, fun s hinit => exec_init_initialised hinit⟩
  have hmem : Op.setInitDone ∈ initSequence s.cfg := (setInitDone_mem_lazyInit s.cfg false).2 rfl
  rw [exec_init_uninitialised hinit, perform_served (by simpa using hserve), State.ran, decide_eq_true hmem, Bool.or_true,
    opsEvents_initSequence]
  rfl

/-- In every environment a command emits a first part of its events. -/
theorem emitted_prefix (es : List Event) (e : Env) : emitted es e <+: es := by
  induction es generalizing e with
  | nil => exact List.prefix_rfl
  | cons ev es ih =>
    cases ev with
    | w r v =>
      rcases ha : e.takeAnswer with _ | ⟨_ | _, e'⟩ <;> simp [emitted, ha, ih]
    | d ms =>
      rcases ha : e.takeReturn with _ | e' <;> simp [emitted, ha, ih]

/-- A first part of some events has a first part of their writes. -/
theorem writes_prefix {es es' : List Event} (h : es <+: es') : writes es <+: writes es' := by
  obtain ⟨rest, rfl⟩ := h
  rw [writes_append]
  exact List.prefix_append ..

/-- The writes of the init trace, in the order of 42_init.md R123. -/
theorem writes_initTrace (c : Config) :
    writes (initTrace c) = (if c.softResetEn then [(0x00, 0x80)] else []) ++
      [(0x00, 0x11), (0xFE, c.prescale), (0xFA, 0x00), (0xFB, 0x00), (0xFC, 0x33), (0xFD, 0x01), (0x00, 0x01)] := by
  cases h : c.softResetEn <;> cases h' : c.wakeSettleEn <;> simp [initTrace, h, h', writes]

/-- Settles O43: what INIT emits is a first part of the init trace. -/
theorem initWriteOrder : Obligations.InitWriteOrder := by
  intro s t hinit ht
  rw [exec_init_uninitialised hinit] at ht
  cases ht
  refine ⟨_, perform_trace _ s, ?_⟩
  rw [opsEvents_initSequence, ← writes_initTrace]
  exact writes_prefix (emitted_prefix ..)

/-- Settles O44: the failed write stops the sequence, which is then not served to its end. -/
theorem initTransportFailure : Obligations.InitTransportFailure := by
  intro s r hinit hfail
  have hexec := exec_init_uninitialised hinit
  have hstopped := perform_stoppedBy ((opsEvents_initSequence s.cfg).symm ▸ hfail)
  rw [opsEvents_initSequence] at hstopped
  obtain ⟨hdone, -⟩ := initDoneExactlyAfterWholeSequence s _ hinit (.inl hexec)
  rw [Env.serve_eq_none_of_firstFailure hfail] at hdone
  exact ⟨_, hexec, by simpa using hdone, hstopped.busy, hstopped.trace, hstopped.responses⟩

/-- Settles O45: INIT performs the lazy init, whose events write the registers of the init sequence only. -/
theorem initFrame : Obligations.InitFrame := by
  intro s t ht
  have hresponds (hinit : s.initDone = true) : t = { s with responses := t.responses } := by
    rw [exec_init_initialised hinit] at ht
    cases ht
    rfl
  rw [exec_init] at ht
  cases ht
  obtain ⟨hcfg, hcommands, hreset, hline⟩ := perform_frame (lazyInit s.cfg s.initDone) s
  obtain ⟨hstanding, hanswers⟩ := perform_env (lazyInit s.cfg s.initDone) s
  obtain ⟨es, fs, rs, adds⟩ := perform_adds (lazyInit s.cfg s.initDone) s
  refine ⟨hcfg, hcommands, hreset, hline, hstanding, hanswers, hresponds, ⟨es, adds.trace.symm⟩, ⟨fs, adds.fates.symm⟩,
    ⟨rs, adds.responses.symm⟩, fun a ha => perform_image _ s a ?_⟩
  rw [opsEvents_lazyInit, mem_writtenRegs_initCommandTrace]
  exact fun ⟨_, h⟩ => ha h

/-- Settles O47: the sequence has the init trace as its events, counted in each of the four configurations. -/
theorem initTraceCounts : Obligations.InitTraceCounts := by
  intro c
  rw [opsEvents_initSequence]
  cases h : c.softResetEn <;> cases h' : c.wakeSettleEn <;> simp [initTrace, h, h', writeCount]

end Sys2Proof.Machine
end

section
/-! ### Illegal words (60_exceptions.md R143, 30_encoding.md R65) -/

namespace Sys2Proof

/-- A word is rejected exactly if it matches no mask of the opcode map (30_encoding.md R62). -/
theorem decode_eq_error_iff_masks {cmd : Word} : (∃ e, decode cmd = .error e) ↔
    cmd &&& 0xFFFF0000#32 ≠ 0x10000000#32 ∧ cmd &&& 0xFF000000#32 ≠ 0x20000000#32 ∧ cmd ≠ 0x30000000#32 := by
  have hinit : cmd &&& 0xFFFFFFFF#32 = cmd := BitVec.and_allOnes
  rw [decode_eq_error_iff, ← convRow_iff, ← servoRow_iff, ← initRow_iff, hinit]

end Sys2Proof

namespace Sys2Proof.Machine

/-- Raising IllegalCommand appends its response word and does nothing else (60_exceptions.md R143). -/
theorem raise_illegalCommand (s : State) :
    s.raise .illegalCommand = { s with responses := s.responses ++ [0x30000000#32] } := rfl

/-- Settles O14: the step takes the word, which the decoder rejects, and raises IllegalCommand. -/
theorem illegalWordAnswered : Obligations.IllegalWordAnswered := by
  intro s cmd rest hr hb hc hconv hservo hinit
  obtain ⟨e, hd⟩ := decode_eq_error_iff_masks.2 ⟨hconv, hservo, hinit⟩
  rw [step_command hr hb hc, acceptWord_illegal hd, raise_illegalCommand]
  simp [State.takeCommand, hc]

end Sys2Proof.Machine
end

section
/-! ### Steps in reset, steps that do nothing, and the state right after reset (70_reset_and_hazards.md R160, R164, R172) -/

namespace Sys2Proof.Machine

/-- Settles O2: the step takes its inputs and holds reset, which abandons the command by what it waits for. -/
theorem resetInputAbandonsCommand : Obligations.ResetInputAbandonsCommand := by
  intro s hr
  rw [step_inReset hr]
  rcases hb : s.busy with _ | ⟨_ | _, rest⟩ <;>
    simp [State.holdReset, State.abandon, State.tick, abandonedFates, abandonedImage, hb]

/-- Settles O15, by the cases of the reset input and by the idle case of a step. -/
theorem stepNeverStops : Obligations.StepNeverStops := ⟨step_next, fun _ => step_idle⟩

/-- Settles O51: the invariant holds right after reset in every configuration, that of `State.reset` included. -/
theorem machineInvariantAtReset : Obligations.MachineInvariantAtReset :=
  ⟨fun c => ⟨machineInv_resetWith c, rfl, rfl, fun _ => rfl⟩, machineInv_resetWith _⟩

/-- Settles O38: after the low byte is answered the SERVO emits its high byte and waits; only the low byte has changed the image. -/
theorem servoWaitsBetweenTheTwoWrites : Obligations.ServoWaitsBetweenTheTwoWrites := by
  intro s ch angle e hch hinit hlow hhigh
  have hlowReg := offLowReg_toNat hch
  have hexec := exec_servo_initialised hch hinit angle
  rw [perform_memWrite_done hlow, perform_memWrite_wait (s := s.ran _ e) hhigh] at hexec
  refine ⟨_, hexec, rfl, rfl, ?_, ?_⟩
  · simp [opsEvents, Op.events, writeAll, hlowReg]
    omega
  · simp [opsEvents, Op.events, writeAll, hlowReg]
    omega

end Sys2Proof.Machine
end

section
/-! ### What a step leaves alone of the configuration and the inputs (10_state.md R24, 70_reset_and_hazards.md R163) -/

namespace Sys2Proof.Machine

/-- The configuration and the inputs that no command uses up. -/
def State.frame (s : State) : Config × List Word × List ResetInput × List Env := (s.cfg, s.commands, s.resetLine, s.envLine)

theorem State.frame_eq_iff {s t : State} : t.frame = s.frame ↔
    t.cfg = s.cfg ∧ t.commands = s.commands ∧ t.resetLine = s.resetLine ∧ t.envLine = s.envLine := by
  simp [State.frame]

/-- `s` with its next command word taken, unless a command is in progress. -/
def State.accepting (s : State) : State := if s.busy = none then s.takeCommand else s

theorem State.accepting_of_idle {s : State} (h : s.busy = none) : s.accepting = s.takeCommand := if_pos h

theorem State.accepting_of_busy {s : State} (h : s.busy ≠ none) : s.accepting = s := if_neg h

section
variable {s t base : State} {ops : List Op} {i : Instr}

theorem perform_frame_eq (ops : List Op) (s : State) : (perform ops s).frame = s.frame :=
  State.frame_eq_iff.2 (perform_frame ops s)

theorem CutOff.frame (h : CutOff s ops t) : t.frame = s.frame := by
  cases h with
  | whole => exact perform_frame_eq ops s
  | between | unanswered | unreturned | failed => rfl

theorem exec_frame (h : exec i s = .next t) : t.frame = s.frame := by
  cases exec_cases h with
  | converted | rejected => rfl
  | performed ops _ => exact perform_frame_eq ops s

/-- Steps of a command start where the word has been accepted, or where the command waited. -/
theorem Performing.frame (h : Performing s base ops) : base.frame = s.accepting.frame := by
  cases h with
  | accepted hb => rw [State.accepting_of_idle hb]
  | answered r v ops e hb ha => rw [State.accepting_of_busy (by simp [hb])]; rfl
  | returned ops e hb ha => rw [State.accepting_of_busy (by simp [hb])]; rfl

theorem Acted.frame (h : Acted s t) : t.frame = s.accepting.frame := by
  cases h with
  | idle hb hc => simp [State.accepting_of_idle hb, State.frame, hc]
  | illegal hb => rw [State.accepting_of_idle hb]; rfl
  | command hb cmd rest hc i hd _ ht => rw [State.accepting_of_idle hb, exec_frame ht]
  | waits b hb hw => rw [State.accepting_of_busy (by simp [hb])]
  | answered r v rest e hb ha => rw [perform_frame_eq, (Performing.answered r v rest e hb ha).frame]
  | failed r v rest e hb ha => rw [State.accepting_of_busy (by simp [hb])]; rfl
  | returned rest e hb ha => rw [perform_frame_eq, (Performing.returned rest e hb ha).frame]

/-- Wherever reset cuts a step, the word has been accepted as in the whole step. -/
theorem ActedUntil.frame (h : ActedUntil s t) : t.frame = s.accepting.frame := by
  cases h with
  | whole => exact (act_whole_cases s).frame
  | stays h =>
    by_cases hb : s.busy = none
    · simp [State.accepting_of_idle hb, State.frame, h.resolve_left (not_not.2 hb)]
    · rw [State.accepting_of_busy hb]
  | accepts hb => rw [State.accepting_of_idle hb]
  | cut base ops hp _ ht => rw [ht.frame, hp.frame]
  | failed r v rest e hb ha => rw [State.accepting_of_busy (by simp [hb])]; rfl
end

/-- Settles O16: a step takes a word only where no command is in progress, and a wait that is not ended changes nothing. -/
theorem busyAcceptsNoCommand : Obligations.BusyAcceptsNoCommand := by
  refine ⟨fun s t b hb hs => ?_, fun s r v rest hr hb hanswers hstanding => ?_, fun s rest hr hb hdelays => ?_⟩
  · have hframe {u : State} (hu : u.frame = s.tick.accepting.frame) : u.commands = s.commands := by
      rw [State.accepting_of_busy (by simp [hb])] at hu
      obtain ⟨-, hcommands, -⟩ := State.frame_eq_iff.1 hu
      exact hcommands
    cases step_cases hs with
    | released _ _ ht => exact hframe ht.frame
    | inReset => rfl
    | cutOff n _ u hu => exact hframe hu.frame
  · have hnone : s.tick.env.takeAnswer = none := Env.takeAnswer_eq_none_iff.2 ⟨hanswers, hstanding⟩
    rw [step_busy hr hb, advance_waits _ (by simp [Env.serves, hnone])]
  · have hnone : s.tick.env.takeReturn = none := by simp [Env.takeReturn, hdelays]
    rw [step_busy hr hb, advance_waits _ (by simp [Env.serves, hnone])]

end Sys2Proof.Machine
end

section
/-! ### Commands and runs under ALL_DONE (70_reset_and_hazards.md R170, R172; 92_eei_decisions.md D22) -/

namespace Sys2Proof.Machine

/-- Under ALL_DONE all steps are served and the command responds OK. -/
theorem perform_allDone {s : State} (h : s.env.allDone) (ops : List Op) :
    ∃ e : Env, e.allDone ∧ perform ops s = (s.ran ops e).respond .ok 0 0 :=
  ⟨_, h.drop _, perform_served (h.serve_eq _)⟩

/-- From `s` to `t` A2P has carried out a command word with all its events served (70_reset_and_hazards.md R172). -/
structure CarriedOut (cmd : Word) (s t : State) : Prop where
  busy : t.busy = s.busy
  frame : t.frame = s.frame
  allDone : t.env.allDone
  trace : t.trace = s.trace ++ wordTrace s.cfg s.initDone cmd
  responses : t.responses = s.responses ++ [wordResponse cmd]
  initDone : t.initDone = wordInitDone s.initDone cmd

theorem acceptWord_allDone {s : State} (h : s.env.allDone) (cmd : Word) :
    ∃ t, acceptWord cmd s = .next t ∧ CarriedOut cmd s t := by
  rcases hd : decode cmd with illegal | i
  · exact ⟨_, acceptWord_illegal hd s, rfl, rfl, h, by simp [wordTrace, hd], by simp only [wordResponse, hd]; rfl,
      by simp [wordInitDone, hd]⟩
  · rw [acceptWord_ok hd]
    cases i with
    | conv angle =>
      exact ⟨_, exec_conv angle s, rfl, rfl, h, by simp [wordTrace, hd], by simp only [wordResponse, hd]; rfl,
        by simp [wordInitDone, hd]⟩
    | servo ch angle =>
      rcases le_or_gt ch 15 with hch | hch
      · obtain ⟨e, he, hp⟩ := perform_allDone h (servoOps s.cfg s.initDone ch angle)
        rw [exec_servo_valid hch, hp]
        exact ⟨_, rfl, rfl, rfl, he, by simp [wordTrace, hd, hch], by simp only [wordResponse, hd, if_pos hch]; rfl,
          by cases hinit : s.initDone <;> simp [wordInitDone, hd, hch, hinit]⟩
      · rw [exec_servo_invalid hch]
        exact ⟨_, rfl, rfl, rfl, h, by simp [wordTrace, hd, hch], by simp only [wordResponse, hd, if_neg (not_le.2 hch)]; rfl,
          by simp [wordInitDone, hd, hch]⟩
    | init =>
      obtain ⟨e, he, hp⟩ := perform_allDone h (lazyInit s.cfg s.initDone)
      rw [exec_init, hp]
      exact ⟨_, rfl, rfl, rfl, he, by simp [wordTrace, hd], by simp only [wordResponse, hd]; rfl,
        by cases hinit : s.initDone <;> simp [wordInitDone, hd, hinit]⟩

/-- Idle and out of reset, A2P carries out the next word in one step at which ALL_DONE holds. -/
theorem step_word {s : State} {cmd : Word} {rest : List Word} (hr : s.resetNow = .released) (hb : s.busy = none)
    (hc : s.commands = cmd :: rest) (h : s.tick.env.allDone) : ∃ t, step s = .next t ∧ CarriedOut cmd s.tick.takeCommand t := by
  rw [step_command hr hb hc]
  exact acceptWord_allDone (s := s.tick.takeCommand) h cmd

/-- Settles O18: the word is carried out in the step. -/
theorem commandsEndWhenAllDone : Obligations.CommandsEndWhenAllDone := by
  intro s cmd rest hr hb hc hdone
  obtain ⟨t, hstep, ht⟩ := step_word hr hb hc hdone
  exact ⟨t, hstep, ht.busy.trans hb, by simp [ht.responses], ht.allDone⟩

/-- Settles O19: what is waited for comes, and all the steps left are served. -/
theorem waitingCommandEndsWhenAllDone : Obligations.WaitingCommandEndsWhenAllDone := by
  intro s b hr hb hdone
  rw [step_busy hr hb]
  rcases b with ⟨⟨r, v⟩ | _, rest⟩
  · have ha := hdone.takeAnswer_eq
    obtain ⟨e, he, hp⟩ := perform_allDone (s := (s.tick.idle.withEnv _).writeDone r v) (hdone.drop 1) rest
    rw [advance_serves _ (by simp [Env.serves, ha]), resume_answer_done ha, hp]
    exact ⟨_, rfl, rfl, rfl, rfl, rfl, he⟩
  · have ha := hdone.takeReturn_eq
    obtain ⟨e, he, hp⟩ := perform_allDone (s := s.tick.idle.withEnv s.tick.env) hdone rest
    rw [advance_serves _ (by simp [Env.serves, ha]), resume_return ha, hp]
    exact ⟨_, rfl, rfl, rfl, rfl, rfl, he⟩

/-- Undisturbed, A2P carries out the next word in one step and is undisturbed again. -/
theorem Undisturbed.step_word {s : State} {cmd : Word} {rest : List Word} (h : Undisturbed s) (hc : s.commands = cmd :: rest) :
    ∃ t, step s = .next t ∧ Undisturbed t ∧ t.commands = rest ∧ CarriedOut cmd s.tick.takeCommand t := by
  obtain ⟨t, hstep, ht⟩ := Machine.step_word (by simp [State.resetNow, h.noReset]) h.idle hc h.tick_env
  obtain ⟨-, hcommands, hreset, hline⟩ := State.frame_eq_iff.1 ht.frame
  refine ⟨t, hstep, ⟨ht.busy.trans h.idle, by simp [hreset, h.noReset], fun e he => ?_⟩, by simp [hcommands, hc], ht⟩
  rcases List.mem_cons.1 he with rfl | he
  · exact ht.allDone
  · rw [hline] at he
    exact h.allDone e (List.mem_cons_of_mem _ (List.mem_of_mem_tail he))

/-- Undisturbed, as many steps as words carry them all out. -/
theorem Undisturbed.run_words {cmds : List Word} {s : State} (h : Undisturbed s) (hc : s.commands = cmds) :
    ∃ t : State, Host.Core.run Sys2Proof.core cmds.length s = .next t ∧ t.busy = none ∧ t.commands = [] ∧
      t.trace = s.trace ++ runTrace s.cfg s.initDone cmds ∧ t.responses = s.responses ++ cmds.map wordResponse ∧
      t.initDone = cmds.foldl wordInitDone s.initDone := by
  induction cmds generalizing s with
  | nil => exact ⟨s, rfl, h.idle, hc, by simp [runTrace], by simp, rfl⟩
  | cons cmd cmds ih =>
    obtain ⟨u, hstep, hu, hcommands, out⟩ := h.step_word hc
    obtain ⟨t, hrun, hb, hend, htrace, hresponses, hinit⟩ := ih hu hcommands
    obtain ⟨hcfg, -⟩ := State.frame_eq_iff.1 out.frame
    refine ⟨t, (run_step hstep _).trans hrun, hb, hend, ?_, ?_, ?_⟩
    · simp [htrace, out.trace, out.initDone, hcfg, runTrace]
    · simp [hresponses, out.responses]
    · rw [hinit, out.initDone]
      rfl

/-- Settles O55: each step of the run carries out one word and leaves A2P undisturbed for the next. -/
theorem runObservables : Obligations.RunObservables :=
  fun _ _ hb hr hc hdone => Undisturbed.run_words ⟨hb, hr, hdone⟩ hc

end Sys2Proof.Machine
end

section
/-! ### A step that reset cuts off, against the same step with reset released (70_reset_and_hazards.md R160) -/

namespace Sys2Proof.Machine

/-- A step in whose course reset is asserted: A2P acts for so many moves, then reset is held. -/
theorem step_resetDuring (s : State) (n : Nat) :
    step { s with resetLine := .during n :: s.resetLine.tail } = .next (s.tick.act (.moves n)).holdReset :=
  step_during rfl

/-- What A2P does in a step only adds to what has been emitted and answered. -/
theorem act_adds (s : State) (span : Span) : ∃ es fs rs, Adds s (s.act span) es fs rs := by
  obtain ⟨-, es, fs, rs, h, -⟩ := historyBlind_act span (s := s) rfl
  exact ⟨es, fs, rs, h⟩

theorem trace_prefix_act (s : State) (span : Span) : s.trace <+: (s.act span).trace := by
  obtain ⟨es, fs, rs, h⟩ := act_adds s span
  exact ⟨es, h.trace.symm⟩

theorem Performing.trace {s base : State} {ops : List Op} (h : Performing s base ops) : base.trace = s.trace := by cases h <;> rfl

theorem Performing.responses {s base : State} {ops : List Op} (h : Performing s base ops) : base.responses = s.responses := by
  cases h <;> rfl

/-- `a` is where reset comes, from `s`, in what comes to `t` without it: A2P has emitted a first part of the events, and has not
responded unless nothing was left to do. -/
structure FirstPart (s a t : State) : Prop where
  trace : a.trace <+: t.trace
  responses : a.responses = s.responses ∨ a = t

/-- What a command emits when its first steps are served: their events and what the rest emits. -/
theorem perform_append_trace {done rest : List Op} {s : State} {e : Env} (served : Env.serve (opsEvents done) s.env = some e) :
    (perform (done ++ rest) s).trace = s.trace ++ opsEvents done ++ emitted (opsEvents rest) e := by
  rw [perform_append served, perform_trace]
  rfl

/-- Where reset cuts the steps of a command, a first part of its events has been emitted. -/
theorem CutOff.firstPart {s a : State} {ops : List Op} (h : CutOff s ops a) : FirstPart s a (perform ops s) := by
  cases h with
  | whole => exact ⟨List.prefix_rfl, .inr rfl⟩
  | between done rest e split served =>
    subst split
    exact ⟨⟨_, (perform_append_trace served).symm⟩, .inl rfl⟩
  | unanswered done r v rest e split served | failed done r v rest e _ split served =>
    subst split
    refine ⟨?_, .inl rfl⟩
    rw [perform_append_trace served]
    exact ⟨_, (List.append_cons ..).symm⟩
  | unreturned done ms rest e split served =>
    subst split
    refine ⟨?_, .inl rfl⟩
    rw [perform_append_trace served]
    exact ⟨_, (List.append_cons ..).symm⟩

theorem ActedUntil.firstPart {s a : State} (h : ActedUntil s a) : FirstPart s a (s.act .whole) := by
  cases h with
  | whole => exact ⟨List.prefix_rfl, .inr rfl⟩
  | stays => exact ⟨trace_prefix_act s .whole, .inl rfl⟩
  | accepts => exact ⟨trace_prefix_act s .whole, .inl rfl⟩
  | cut base ops hp _ hcut =>
    rw [hp.act_whole]
    obtain ⟨htrace, hresponses⟩ := hcut.firstPart
    exact ⟨htrace, hp.responses ▸ hresponses⟩
  | failed => exact ⟨trace_prefix_act s .whole, .inl rfl⟩

/-- Settles O3: reset, held where it cuts the step, clears INIT_DONE and leaves A2P idle, and what was done before it is a first part
of what the step does. -/
theorem resetInMidCommand : Obligations.ResetInMidCommand := by
  intro s t u n hr ht hu
  cases (step_released hr).symm.trans ht
  cases (step_resetDuring s n).symm.trans hu
  have hcut := act_moves_cases s.tick n
  have hframe := hcut.frame.trans (act_whole_cases s.tick).frame.symm
  obtain ⟨hcfg, hcommands, hreset, hline⟩ := State.frame_eq_iff.1 hframe
  obtain ⟨htrace, hresponses⟩ := hcut.firstPart
  exact ⟨rfl, rfl, hcfg, hcommands, hreset, hline, trace_prefix_act s.tick (.moves n), htrace,
    hresponses.imp_right (congrArg State.holdReset)⟩

end Sys2Proof.Machine
end

section
/-! ### Every moment of a step at which reset can be asserted (70_reset_and_hazards.md R160, R173) -/

namespace Sys2Proof.Machine

/-! #### Splitting the steps of a command at an event -/

/-- Events that end a first part of what is emitted come after served ones. -/
theorem Env.serve_of_emitted {es evs : List Event} {ev : Event} {e : Env} (h : es ++ [ev] <+: emitted evs e) :
    ∃ e', Env.serve es e = some e' := by
  induction es generalizing evs e with
  | nil => exact ⟨e, rfl⟩
  | cons ev' es ih =>
    rcases evs with _ | ⟨⟨r, v⟩ | ms, evs⟩
    · simp [emitted] at h
    · rw [emitted, List.cons_append, List.cons_prefix_cons] at h
      obtain ⟨rfl, h⟩ := h
      rcases ha : e.takeAnswer with _ | ⟨_ | _, e₁⟩ <;> simp only [ha] at h
      · simp at h
      · simpa [Env.serve, ha] using ih h
      · simp at h
    · rw [emitted, List.cons_append, List.cons_prefix_cons] at h
      obtain ⟨rfl, h⟩ := h
      rcases ha : e.takeReturn with _ | e₁ <;> simp only [ha] at h
      · simp at h
      · simpa [Env.serve, ha] using ih h

/-- Each event of a command is that of one of its steps. -/
theorem exists_op_of_event {ops : List Op} {es : List Event} {ev : Event} (h : es ++ [ev] <+: opsEvents ops) :
    ∃ done op rest, ops = done ++ op :: rest ∧ opsEvents done = es ∧ op.events = [ev] := by
  induction ops generalizing es with
  | nil => simp [opsEvents] at h
  | cons op ops ih =>
    by_cases hop : op = .setInitDone
    · subst hop
      obtain ⟨done, op, rest, rfl, rfl, hev⟩ := ih h
      exact ⟨.setInitDone :: done, op, rest, rfl, rfl, hev⟩
    · obtain ⟨ev', hev'⟩ : ∃ ev', op.events = [ev'] := by cases op <;> simp [Op.events] at hop ⊢
      rw [opsEvents, hev'] at h
      cases es with
      | nil =>
        obtain rfl : ev = ev' := by simpa using h
        exact ⟨[], op, ops, rfl, rfl, hev'⟩
      | cons ev'' es =>
        rw [List.cons_append, List.singleton_append, List.cons_prefix_cons] at h
        obtain ⟨rfl, h⟩ := h
        obtain ⟨done, op', rest, rfl, rfl, hev⟩ := ih h
        exact ⟨op :: done, op', rest, rfl, by simp [opsEvents, hev'], hev⟩

/-- A first part of the events of a command is that of a first part of its steps. -/
theorem exists_ops_of_events {ops : List Op} {es : List Event} (h : es <+: opsEvents ops) :
    ∃ done rest, ops = done ++ rest ∧ opsEvents done = es := by
  rcases List.eq_nil_or_concat es with rfl | ⟨es, ev, rfl⟩
  · exact ⟨[], ops, rfl, rfl⟩
  · rw [List.concat_eq_append] at h ⊢
    obtain ⟨done, op, rest, rfl, rfl, hev⟩ := exists_op_of_event h
    exact ⟨done ++ [op], rest, by simp, by simp [opsEvents, hev]⟩

/-! #### What A2P does in a step, in any span -/

section
variable {s : State} {span span' : Span}

theorem act_busy {b : Busy} (h : s.busy = some b) : s.act span = s.advance b span := by simp [State.act, h]

theorem act_waits {b : Busy} (h : s.busy = some b) (hw : s.env.serves b.wait = false) : s.act span = s := by
  rw [act_busy h, advance_waits _ hw]

theorem act_idle (h : s.busy = none) (hc : s.commands = []) : s.act span = s := by simp [State.act, h, hc]

theorem act_command {cmd : Word} {rest : List Word} (h : s.busy = none) (hc : s.commands = cmd :: rest) :
    s.act span = carryOut (wordPlan cmd s) span s.takeCommand := by
  simp [State.act, h, hc]

/-- The write waited for is answered failed. -/
theorem act_failed {r v : Byte} {rest : List Op} {e : Env} (h : s.busy = some ⟨.answer r v, rest⟩)
    (ha : s.env.takeAnswer = some (.failed, e)) (h1 : span.next = some span') :
    s.act span = raiseIn (.transportError r) span' ((s.idle.withEnv e).writeFailed r) := by
  rw [act_busy h, advance_serves _ (by simp [Env.serves, ha]), resumeIn_answer_failed h1 ha]
end

/-! #### No move at all -/

/-- From `s` to `a` A2P has made no move: nothing emitted, taken or answered, and the same wait. -/
structure Unmoved (s a : State) : Prop where
  busy : a.busy = s.busy
  env : a.env = s.env
  trace : a.trace = s.trace
  fates : a.fates = s.fates
  responses : a.responses = s.responses

theorem Unmoved.refl (s : State) : Unmoved s s := ⟨rfl, rfl, rfl, rfl, rfl⟩

/-- Without a move, steps can only have set INIT_DONE, which is none (log entry 6). -/
theorem performIn_moves_zero (ops : List Op) (s : State) : Unmoved s (performIn ops (.moves 0) s) := by
  induction ops generalizing s with
  | nil => exact .refl s
  | cons op ops ih =>
    cases op with
    | memWrite | delay => exact .refl s
    | setInitDone =>
      obtain ⟨busy, env, trace, fates, responses⟩ := ih s.setInitDone
      exact ⟨busy, env, trace, fates, responses⟩

theorem carryOut_moves_zero (p : Plan) (s : State) : Unmoved s (carryOut p (.moves 0) s) := by
  cases p with
  | reply | raise => exact .refl s
  | steps ops => exact performIn_moves_zero ops s

theorem act_moves_zero (s : State) : Unmoved s (s.act (.moves 0)) := by
  rcases hb : s.busy with _ | b
  · rcases hc : s.commands with _ | ⟨cmd, rest⟩
    · rw [act_idle hb hc]
      exact .refl s
    · rw [act_command hb hc]
      obtain ⟨busy, env, trace, fates, responses⟩ := carryOut_moves_zero (wordPlan cmd s) s.takeCommand
      exact ⟨busy, env, trace, fates, responses⟩
  · have hstays : s.act (.moves 0) = s := by
      rw [act_busy hb]
      cases hsv : s.env.serves b.wait with
      | false => exact advance_waits _ hsv
      | true => rw [advance_serves _ hsv, resumeIn_cut Span.next_moves_zero, State.idle_waitAt hb]
    rw [hstays]
    exact .refl s

/-! #### The course of a step -/

/-- The course of a step, said for every span. -/
inductive Course (s : State) : Prop where
  /-- steps of a command are performed -/
  | performs (base : State) (ops : List Op) (hp : Performing s base ops)
  /-- idle with no word -/
  | idle (hb : s.busy = none) (hc : s.commands = [])
  /-- the command in progress is not served -/
  | waits (b : Busy) (hb : s.busy = some b) (hw : s.env.serves b.wait = false)
  /-- a word is accepted that only responds -/
  | responds (hb : s.busy = none) (st : Status) (info : Byte) (o : Half)
      (h : ∀ span, s.act span = respondIn st info o span s.takeCommand)
  /-- the write waited for is answered failed -/
  | failed (r v : Byte) (rest : List Op) (e : Env) (hb : s.busy = some ⟨.answer r v, rest⟩)
      (ha : s.env.takeAnswer = some (.failed, e))

theorem act_course (s : State) : Course s := by
  rcases hb : s.busy with _ | b
  · rcases hc : s.commands with _ | ⟨cmd, rest⟩
    · exact .idle hb hc
    · cases hp : wordPlan cmd s with
      | reply st info o => exact .responds hb st info o fun span => by rw [act_command hb hc, hp]; rfl
      | raise x => exact .responds hb x.status x.info 0 fun span => by rw [act_command hb hc, hp]; rfl
      | steps ops =>
        rcases hd : decode cmd with illegal | i <;> simp only [wordPlan, hd, reduceCtorEq] at hp
        exact .performs _ ops (.accepted hb cmd rest hc i hd ops (planOf_steps hp))
  · cases hsv : s.env.serves b.wait with
    | false => exact .waits b hb hsv
    | true =>
      rcases b with ⟨⟨r, v⟩ | _, rest⟩
      · rcases ha : s.env.takeAnswer with _ | ⟨_ | _, e⟩
        · simp [Env.serves, ha] at hsv
        · exact .performs _ rest (.answered r v rest e hb ha)
        · exact .failed r v rest e hb ha
      · rcases ha : s.env.takeReturn with _ | e
        · simp [Env.serves, ha] at hsv
        · exact .performs _ rest (.returned rest e hb ha)

/-- After the moves that take it to where its steps start (one, if it waited; none, if it was accepted), a command performs them. -/
theorem Performing.act_moves {s base : State} {ops : List Op} (h : Performing s base ops) :
    ∃ j, ∀ n, s.act (.moves (n + j)) = performIn ops (.moves n) base := by
  cases h with
  | accepted hb cmd rest hc i hd ops steps =>
    have hplan : planOf i s = .steps ops := by
      rcases steps with ⟨rfl, rfl⟩ | ⟨ch, angle, hch, rfl, rfl⟩
      · rfl
      · simp [planOf, servoPlan, (channelValid_iff ch).2 hch]
    exact ⟨0, fun n => by simp [act_command hb hc, wordPlan, hd, hplan, carryOut]⟩
  | answered r v ops e hb ha =>
    refine ⟨1, fun n => ?_⟩
    rw [act_busy hb, advance_serves _ (by simp [Env.serves, ha]), resumeIn_answer_done (Span.next_moves_succ n) ha]
  | returned ops e hb ha =>
    refine ⟨1, fun n => ?_⟩
    rw [act_busy hb, advance_serves _ (by simp [Env.serves, ha]), resumeIn_return (Span.next_moves_succ n) ha]

/-- Where the steps of a command start, A2P is idle and has taken what the command waited for. -/
structure Ready (s base : State) : Prop where
  busy : base.busy = none
  env : Env.afterWait s.busy s.env = some base.env
  fates : ∃ k, base.fates = s.fates ++ List.replicate k (.answered .done)

theorem Performing.ready {s base : State} {ops : List Op} (h : Performing s base ops) : Ready s base := by
  cases h with
  | accepted hb => exact ⟨hb, by rw [hb]; rfl, 0, by simp⟩
  | answered r v ops e hb ha => exact ⟨rfl, by simp [hb, Env.afterWait, Env.serve, ha], 1, rfl⟩
  | returned ops e hb ha => exact ⟨rfl, by simp [hb, Env.afterWait, ha], 0, by simp⟩

/-- What performing the steps comes to in some span, the whole step comes to in some span. -/
theorem Performing.act_eq {s base a : State} {ops : List Op} (h : Performing s base ops)
    (ha : ∃ n, performIn ops (.moves n) base = a) : ∃ n, s.act (.moves n) = a := by
  obtain ⟨j, hj⟩ := h.act_moves
  obtain ⟨n, hn⟩ := ha
  exact ⟨n + j, (hj n).trans hn⟩

/-- The same after a first part of the steps that is served. -/
theorem Performing.act_eq_of_served {s base a : State} {done rest : List Op} {e : Env} (h : Performing s base (done ++ rest))
    (served : Env.serve (opsEvents done) base.env = some e) (n : Nat) (ha : performIn rest (.moves n) (base.ran done e) = a) :
    ∃ n, s.act (.moves n) = a := by
  obtain ⟨k, hk⟩ := performIn_append served rest
  exact h.act_eq ⟨n + k, (hk n).trans ha⟩

/-- In a step that emits, the steps of a command are performed. -/
theorem performs_or_silent (s : State) : (∃ base ops, Performing s base ops) ∨
    ((s.act .whole).trace = s.trace ∧ (s.busy = none ∨ Env.afterWait s.busy s.env = none)) := by
  cases act_course s with
  | performs base ops hp => exact .inl ⟨base, ops, hp⟩
  | idle hb hc => exact .inr ⟨by rw [act_idle hb hc], .inl hb⟩
  | responds hb st info o h => exact .inr ⟨by rw [h]; rfl, .inl hb⟩
  | waits b hb hw =>
    refine .inr ⟨by rw [act_waits hb hw], .inr ?_⟩
    rcases b with ⟨⟨r, v⟩ | _, rest⟩
    · have hnone : s.env.takeAnswer = none := by simpa [Env.serves] using hw
      simp [hb, Env.afterWait, Env.serve, hnone]
    · simpa [hb, Env.afterWait, Env.serves] using hw
  | failed r v rest e hb ha =>
    refine .inr ⟨by rw [act_failed hb ha Span.next_whole]; rfl, .inr ?_⟩
    simp [hb, Env.afterWait, Env.serve, ha]

/-- A first part of what a step emits while it performs steps is a first part of what those emit. -/
theorem Performing.prefix_emitted {s base : State} {ops : List Op} {es : List Event} (h : Performing s base ops)
    (hes : s.trace ++ es <+: (s.act .whole).trace) : es <+: emitted (opsEvents ops) base.env := by
  rw [h.act_whole, perform_trace, h.trace] at hes
  exact (List.prefix_append_right_inj _).1 hes

/-! #### The moments -/

/-- At `a`, from `s` with `e` of the environment left, A2P has emitted the events `es` with all they wait for taken, and `ev` with
nothing taken. -/
structure AfterEvent (s a : State) (e : Env) (es : List Event) (ev : Event) : Prop where
  trace : a.trace = s.trace ++ es ++ [ev]
  responses : a.responses = s.responses
  served : Env.serve es e = some a.env
  wait : ∀ r v, ev = .w r v → ∃ rest, a.busy = some ⟨.answer r v, rest⟩

theorem act_afterEvent {s : State} {e : Env} {es : List Event} {ev : Event} (he : Env.afterWait s.busy s.env = some e)
    (h : s.trace ++ es ++ [ev] <+: (s.act .whole).trace) : ∃ n, AfterEvent s (s.act (.moves n)) e es ev := by
  rcases performs_or_silent s with ⟨base, ops, hp⟩ | ⟨hsilent, -⟩
  · obtain rfl : base.env = e := Option.some_inj.1 (hp.ready.env.symm.trans he)
    rw [List.append_assoc] at h
    have hes := hp.prefix_emitted h
    obtain ⟨e', served⟩ := Env.serve_of_emitted hes
    obtain ⟨done, op, rest, rfl, rfl, hev⟩ := exists_op_of_event (hes.trans (emitted_prefix ..))
    cases op with
    | memWrite r v =>
      cases hev
      obtain ⟨n, hn⟩ := hp.act_eq_of_served served 1
        (performIn_memWrite_unanswered (Span.next_moves_succ 0) Span.next_moves_zero)
      refine ⟨n, ?_⟩
      rw [hn]
      exact ⟨by simp [hp.trace], hp.responses, served, by rintro _ _ ⟨⟩; exact ⟨rest, rfl⟩⟩
    | delay ms =>
      cases hev
      obtain ⟨n, hn⟩ := hp.act_eq_of_served served 1
        (performIn_delay_unreturned (Span.next_moves_succ 0) Span.next_moves_zero)
      refine ⟨n, ?_⟩
      rw [hn]
      exact ⟨by simp [hp.trace], hp.responses, served, by simp⟩
    | setInitDone => cases hev
  · rw [hsilent] at h
    simpa using h.length_le

/-- At `a`, from `s`, A2P has emitted the events `es` with all they wait for taken, and `e` is left of the environment. -/
structure Between (s a : State) (es : List Event) (e : Env) : Prop where
  busy : a.busy = none
  trace : a.trace = s.trace ++ es
  responses : a.responses = s.responses
  env : a.env = e
  fates : ∃ k, a.fates = s.fates ++ List.replicate k (.answered .done)

theorem act_between {s : State} {e e' : Env} {es : List Event} (he : Env.afterWait s.busy s.env = some e)
    (h : s.trace ++ es <+: (s.act .whole).trace) (served : Env.serve es e = some e') :
    ∃ n, Between s (s.act (.moves n)) es e' := by
  rcases performs_or_silent s with ⟨base, ops, hp⟩ | ⟨hsilent, hb⟩
  · obtain ⟨hbusy, henv, k, hfates⟩ := hp.ready
    obtain rfl : base.env = e := Option.some_inj.1 (henv.symm.trans he)
    obtain ⟨done, rest, rfl, rfl⟩ := exists_ops_of_events ((hp.prefix_emitted h).trans (emitted_prefix ..))
    obtain ⟨n, hn⟩ := hp.act_eq_of_served served 0 rfl
    have unmoved := performIn_moves_zero rest (base.ran done e')
    refine ⟨n, ?_⟩
    rw [hn]
    exact ⟨unmoved.busy.trans hbusy, by simp [unmoved.trace, hp.trace], unmoved.responses.trans hp.responses, unmoved.env,
      _, by rw [unmoved.fates, State.ran_fates, hfates, List.append_assoc, List.replicate_append_replicate]⟩
  · have hidle : s.busy = none := hb.resolve_right (by simp [he])
    obtain rfl : s.env = e := by simpa [hidle, Env.afterWait] using he
    obtain rfl : es = [] := by
      rw [hsilent] at h
      simpa using h.length_le
    cases served
    have unmoved := act_moves_zero s
    exact ⟨0, unmoved.busy.trans hidle, by simp [unmoved.trace], unmoved.responses, unmoved.env, 0, by simp [unmoved.fates]⟩

/-- After any first part of the events of a step, with no response given. -/
theorem act_afterEvents {s : State} {es : List Event} (h : s.trace ++ es <+: (s.act .whole).trace) :
    ∃ n, (s.act (.moves n)).trace = s.trace ++ es ∧ (s.act (.moves n)).responses = s.responses := by
  rcases List.eq_nil_or_concat es with rfl | ⟨es, ev, rfl⟩
  · have unmoved := act_moves_zero s
    exact ⟨0, by simp [unmoved.trace], unmoved.responses⟩
  · rw [List.concat_eq_append, ← List.append_assoc] at h ⊢
    rcases performs_or_silent s with ⟨base, ops, hp⟩ | ⟨hsilent, -⟩
    · obtain ⟨n, hn⟩ := act_afterEvent hp.ready.env h
      exact ⟨n, hn.trace, hn.responses⟩
    · rw [hsilent] at h
      simpa using h.length_le

/-- At `a`, from `s`, all that is done in coming to `t` has been done but the response. -/
structure BeforeResponse (s a t : State) : Prop where
  busy : a.busy = none
  trace : a.trace = t.trace
  fates : a.fates = t.fates
  env : a.env = t.env
  responses : a.responses = s.responses

theorem Performing.beforeResponse {s base : State} {ops : List Op} (hp : Performing s base ops)
    (h : (perform ops base).busy = none) : ∃ n, BeforeResponse s (s.act (.moves n)) (perform ops base) := by
  have hc := perform_cases ops base
  generalize perform ops base = t at hc h
  cases hc with
  | completed e served =>
    obtain ⟨n, hn⟩ := (show Performing s base (ops ++ []) by simpa using hp).act_eq_of_served served 0 rfl
    refine ⟨n, ?_⟩
    rw [hn]
    exact ⟨h, rfl, rfl, rfl, hp.responses⟩
  | failed done r v rest e e' split served answer =>
    subst split
    obtain ⟨n, hn⟩ := hp.act_eq_of_served served 2
      (performIn_memWrite_failed (Span.next_moves_succ 1) (Span.next_moves_succ 0) answer)
    refine ⟨n, ?_⟩
    rw [hn]
    exact ⟨h, rfl, rfl, rfl, hp.responses⟩
  | waitAnswer | waitReturn => cases h

theorem act_beforeResponse {s : State} (h : (s.act .whole).busy = none) :
    ∃ n, BeforeResponse s (s.act (.moves n)) (s.act .whole) := by
  cases act_course s with
  | performs base ops hp =>
    rw [hp.act_whole] at h ⊢
    exact hp.beforeResponse h
  | idle hb hc => exact ⟨0, by rw [act_idle hb hc, act_idle hb hc]; exact ⟨hb, rfl, rfl, rfl, rfl⟩⟩
  | waits b hb hw =>
    rw [act_waits hb hw, hb] at h
    cases h
  | responds hb st info o hact => exact ⟨0, by rw [hact, hact]; exact ⟨hb, rfl, rfl, rfl, rfl⟩⟩
  | failed r v rest e hb ha =>
    refine ⟨1, ?_⟩
    rw [act_failed hb ha (Span.next_moves_succ 0), act_failed hb ha Span.next_whole]
    exact ⟨rfl, rfl, rfl, rfl, rfl⟩

/-- After enough moves A2P has done all that the step does. -/
theorem act_enough (s : State) : ∃ n, s.act (.moves n) = s.act .whole := by
  cases act_course s with
  | performs base ops hp =>
    rw [hp.act_whole]
    exact hp.act_eq (performIn_enough ops base)
  | idle hb hc => exact ⟨0, by rw [act_idle hb hc, act_idle hb hc]⟩
  | waits b hb hw => exact ⟨0, by rw [act_waits hb hw, act_waits hb hw]⟩
  | responds hb st info o h => exact ⟨1, by rw [h, h]; rfl⟩
  | failed r v rest e hb ha =>
    exact ⟨2, by rw [act_failed hb ha (Span.next_moves_succ 1), act_failed hb ha Span.next_whole]; rfl⟩

/-- Settles O4: reset is held at each moment that A2P comes to in some number of moves. -/
theorem resetReachesEveryMoment : Obligations.ResetReachesEveryMoment := by
  intro s t hr ht
  cases (step_released hr).symm.trans ht
  refine ⟨fun es h => ?_, ?_, fun e es ev he h => ?_, fun e e' es he h served => ?_, fun h => ?_, ?_⟩
  · obtain ⟨n, htrace, hresponses⟩ := act_afterEvents (s := s.tick) h
    exact ⟨n, _, step_resetDuring s n, htrace, hresponses⟩
  · have unmoved := act_moves_zero s.tick
    refine ⟨0, _, step_resetDuring s 0, unmoved.trace, unmoved.responses, unmoved.env, ?_⟩
    rw [State.holdReset_fates, unmoved.fates, unmoved.busy]
    rfl
  · obtain ⟨n, htrace, hresponses, hserved, hwait⟩ := act_afterEvent (s := s.tick) he h
    refine ⟨n, _, step_resetDuring s n, htrace, hresponses, hserved, fun r v hev => ?_⟩
    obtain ⟨rest, hb⟩ := hwait r v hev
    exact ⟨by simp [hb, abandonedImage], _, by rw [State.holdReset_fates, hb]; rfl⟩
  · obtain ⟨n, hb, htrace, hresponses, henv, k, hfates⟩ := act_between (s := s.tick) he h served
    refine ⟨n, _, step_resetDuring s n, htrace, hresponses, henv, ?_⟩
    simp [hb, hfates, abandonedFates]
  · obtain ⟨n, hb, htrace, hfates, henv, hresponses⟩ := act_beforeResponse h
    exact ⟨n, _, step_resetDuring s n, htrace, by simp [hb, hfates, abandonedFates], henv, hresponses⟩
  · obtain ⟨n, hn⟩ := act_enough s.tick
    exact ⟨n, by rw [step_resetDuring, hn]⟩

end Sys2Proof.Machine
end
